-- ==== Sys2Proof/Word.lean ====
section
/-! DEFINITION. The two word widths of the SC8E core (spec/00_scope.md R7, R10). -/

namespace Sys2Proof

/-- `u8`: general registers, timers, memory bytes (R10, R21, R60). -/
abbrev Byte := BitVec 8

/-- `u16`: the instruction word, `I`, `pc` and the call-stack slots (R7, R25, R27, R30). -/
abbrev Word := BitVec 16

/-- The number of a general register, V0–VF (R21, R92). -/
abbrev Reg := Fin 16

end Sys2Proof
end

