-- ==== Sys2Proof/Config.lean ====
section
/-! DEFINITION. The parameters the spec leaves open (spec/00_scope.md R8): four named parameters with the spec's
defaults, which the state carries as constants (log 1), and the random draw of RND, a free value (log 2). -/

namespace Sys2Proof

/-- `SECONDARY_DECODE`: what selects the operation in families 0x0 and 0xE (30_encoding.md R95, decision D1). -/
inductive SecondaryDecode where
  | nibbleLow   -- the low nibble alone
  | exact       -- the whole low byte (and, in family 0x0, the whole word)
  deriving DecidableEq, Repr

/-- `UNDECODED_PC_STEP`: how far pc moves over an undecoded word (40_cycle.md R124, decision D2). -/
inductive UndecodedStep where
  | zero
  | two
  deriving DecidableEq, Repr

/-- `VF_ALIAS`: the order of the flag write and the result write (42_alu.md R170, decision D8). -/
inductive VfAlias where
  | sequential
  | flagLast
  | resultLast
  deriving DecidableEq, Repr

/-- `FONT`: the 80 bytes at 0x000–0x04F (20_memory.md R64, decision D18). -/
abbrev Font := Vector Byte 80

/-- The named parameters of R8. -/
structure Params where
  secondaryDecode : SecondaryDecode
  undecodedStep   : UndecodedStep
  vfAlias         : VfAlias
  font            : Font
  deriving DecidableEq, Repr

namespace Config

/-- The default `FONT`, digit by digit (20_memory.md R64; the spec marks the table as general knowledge). -/
def defaultFont : Font := Vector.mk (#[
  0xF0, 0x90, 0x90, 0x90, 0xF0,   0x20, 0x60, 0x20, 0x20, 0x70,   -- 0 1
  0xF0, 0x10, 0xF0, 0x80, 0xF0,   0xF0, 0x10, 0xF0, 0x10, 0xF0,   -- 2 3
  0x90, 0x90, 0xF0, 0x10, 0x10,   0xF0, 0x80, 0xF0, 0x10, 0xF0,   -- 4 5
  0xF0, 0x80, 0xF0, 0x90, 0xF0,   0xF0, 0x10, 0x20, 0x40, 0x40,   -- 6 7
  0xF0, 0x90, 0xF0, 0x90, 0xF0,   0xF0, 0x90, 0xF0, 0x10, 0xF0,   -- 8 9
  0xF0, 0x90, 0xF0, 0x90, 0x90,   0xE0, 0x90, 0xE0, 0x90, 0xE0,   -- A B
  0xF0, 0x80, 0x80, 0x80, 0xF0,   0xE0, 0x90, 0x90, 0x90, 0xE0,   -- C D
  0xF0, 0x80, 0xF0, 0x80, 0xF0,   0xF0, 0x80, 0xF0, 0x80, 0x80])  -- E F
  rfl

/-- The defaults of R8. -/
def defaults : Params :=
  { secondaryDecode := .nibbleLow, undecodedStep := .zero, vfAlias := .sequential, font := defaultFont }

/-- `rnd8`: the byte the n-th execution of RND draws (10_state.md R44, 42_alu.md R183, decision D11). It has no body:
nothing can be proved of any draw, so whatever is proved holds for every sequence of draws (log 2; safe). -/
opaque freeByte : Nat → Byte

end Config

end Sys2Proof
end

