-- ==== Sys2Proof/Syntax.lean ====
section
/-! DEFINITION. The 34 operations of the SC8E core, one constructor per row of spec/opcode_table.json and in its order
(spec/00_scope.md R3, spec/30_encoding.md R97). Registers are `Reg`, NN is a `Byte`, DRW's row count N has its own four
bits, and NNN is the address already zero-extended to 16 bits (R92), which `WellFormed` keeps to 12 bits. -/

namespace Sys2Proof

inductive Instr where
  | cls
  | ret
  | jp      (addr : Word)
  | call    (addr : Word)
  | seByte  (x : Reg) (nn : Byte)
  | sneByte (x : Reg) (nn : Byte)
  | seReg   (x y : Reg)
  | ldByte  (x : Reg) (nn : Byte)
  | addByte (x : Reg) (nn : Byte)
  | ldReg   (x y : Reg)
  | orReg   (x y : Reg)
  | andReg  (x y : Reg)
  | xorReg  (x y : Reg)
  | addReg  (x y : Reg)
  | subReg  (x y : Reg)
  /-- SHR Vx: the word's Y field is read by no rule (R98), so it is no operand. -/
  | shr     (x : Reg)
  | subnReg (x y : Reg)
  /-- SHL Vx: as SHR. -/
  | shl     (x : Reg)
  | sneReg  (x y : Reg)
  | ldI     (addr : Word)
  | jpV0    (addr : Word)
  | rnd     (x : Reg) (nn : Byte)
  | drw     (x y : Reg) (n : BitVec 4)
  | skp     (x : Reg)
  | sknp    (x : Reg)
  | ldVxDt  (x : Reg)
  | ldVxK   (x : Reg)
  | ldDtVx  (x : Reg)
  | ldStVx  (x : Reg)
  | addI    (x : Reg)
  | ldF     (x : Reg)
  | ldB     (x : Reg)
  | stRegs  (x : Reg)
  | ldRegs  (x : Reg)
  deriving DecidableEq, Repr

end Sys2Proof
end

