-- ==== Sys2Proof/WellFormed.lean ====
section
/-! DEFINITION. Which terms of `Instr` stand for an instruction word. The types hold every operand but NNN to its field;
NNN is kept at the 16-bit width it is written to pc and I in, and must fit the 12 bits of its field (spec/30_encoding.md
R91, R92). -/

namespace Sys2Proof

/-- NNN is a 12-bit unsigned address (R92). -/
def addrOk (addr : Word) : Bool := decide (addr.toNat < 0x1000)

/-- The instruction fits its encoding: the one check is on the address operand of the four format-A operations (R91). -/
def Instr.wf : Instr → Bool
  | .jp addr    => addrOk addr
  | .call addr  => addrOk addr
  | .ldI addr   => addrOk addr
  | .jpV0 addr  => addrOk addr
  | .cls => true
  | .ret => true
  | .seByte _ _ => true
  | .sneByte _ _ => true
  | .seReg _ _ => true
  | .ldByte _ _ => true
  | .addByte _ _ => true
  | .ldReg _ _ => true
  | .orReg _ _ => true
  | .andReg _ _ => true
  | .xorReg _ _ => true
  | .addReg _ _ => true
  | .subReg _ _ => true
  | .shr _ => true
  | .subnReg _ _ => true
  | .shl _ => true
  | .sneReg _ _ => true
  | .rnd _ _ => true
  | .drw _ _ _ => true
  | .skp _ => true
  | .sknp _ => true
  | .ldVxDt _ => true
  | .ldVxK _ => true
  | .ldDtVx _ => true
  | .ldStVx _ => true
  | .addI _ => true
  | .ldF _ => true
  | .ldB _ => true
  | .stRegs _ => true
  | .ldRegs _ => true

/-- `i` is a well-formed instruction. -/
abbrev WellFormed (i : Instr) : Prop := i.wf = true

end Sys2Proof
end

