-- ==== Sys2Proof/Decode.lean ====
section
/-! DEFINITION. From bytes to instructions and back (spec/30_encoding.md). Decoding follows the families of R93 and the
selectors of R94, R95 and R97; a word that matches no row is rejected by its family's name (R100). The encoder emits the
canonical word of R97. -/

namespace Sys2Proof

/-- Why bytes are no instruction. -/
inductive DecodeError where
  /-- Fewer than the two bytes every instruction has (R90). -/
  | truncated
  /-- Family 0x0 with no matching selector (R100). -/
  | undecoded0 (w : Word)
  /-- Family 0x8 with no matching selector (R100). -/
  | undecoded8 (w : Word)
  /-- Family 0xE with no matching selector (R100). -/
  | undecodedE (w : Word)
  /-- Family 0xF with no matching selector (R100). -/
  | undecodedF (w : Word)
  deriving DecidableEq, Repr

/-! The fields of a word (spec/00_scope.md R12). -/

/-- `op = w[15:12]`. -/
def fieldOp (w : Word) : BitVec 4 := w.extractLsb' 12 4
/-- `X = w[11:8]`. -/
def fieldX (w : Word) : Reg := (w.extractLsb' 8 4).toFin
/-- `Y = w[7:4]`. -/
def fieldY (w : Word) : Reg := (w.extractLsb' 4 4).toFin
/-- `N = w[3:0]`. -/
def fieldN (w : Word) : BitVec 4 := w.extractLsb' 0 4
/-- `NN = w[7:0]`. -/
def fieldNN (w : Word) : Byte := w.extractLsb' 0 8
/-- `zext_16(NNN)` with `NNN = w[11:0]` (R92). -/
def fieldNNN (w : Word) : Word := (w.extractLsb' 0 12).setWidth 16

/-- `{hi, lo}`: a word from two consecutive bytes, the first the high one (20_memory.md R70). -/
def wordOfBytes (hi lo : Byte) : Word := hi ++ lo

/-- Family 0x0: CLS and RET. -/
def decode0 (m : SecondaryDecode) (w : Word) : Except DecodeError Instr :=
  match m with
  | .nibbleLow =>
    if fieldN w = 0x0#4 then .ok .cls
    else if fieldN w = 0xE#4 then .ok .ret
    else .error (.undecoded0 w)
  | .exact =>
    if w = 0x00E0#16 then .ok .cls
    else if w = 0x00EE#16 then .ok .ret
    else .error (.undecoded0 w)

/-- Family 0x8: the register-to-register operations, selected by the low nibble. -/
def decode8 (w : Word) : Except DecodeError Instr :=
  if fieldN w = 0x0#4 then .ok (.ldReg (fieldX w) (fieldY w))
  else if fieldN w = 0x1#4 then .ok (.orReg (fieldX w) (fieldY w))
  else if fieldN w = 0x2#4 then .ok (.andReg (fieldX w) (fieldY w))
  else if fieldN w = 0x3#4 then .ok (.xorReg (fieldX w) (fieldY w))
  else if fieldN w = 0x4#4 then .ok (.addReg (fieldX w) (fieldY w))
  else if fieldN w = 0x5#4 then .ok (.subReg (fieldX w) (fieldY w))
  else if fieldN w = 0x6#4 then .ok (.shr (fieldX w))
  else if fieldN w = 0x7#4 then .ok (.subnReg (fieldX w) (fieldY w))
  else if fieldN w = 0xE#4 then .ok (.shl (fieldX w))
  else .error (.undecoded8 w)

/-- Family 0xE: SKP and SKNP. -/
def decodeE (m : SecondaryDecode) (w : Word) : Except DecodeError Instr :=
  match m with
  | .nibbleLow =>
    if fieldN w = 0xE#4 then .ok (.skp (fieldX w))
    else if fieldN w = 0x1#4 then .ok (.sknp (fieldX w))
    else .error (.undecodedE w)
  | .exact =>
    if fieldNN w = 0x9E#8 then .ok (.skp (fieldX w))
    else if fieldNN w = 0xA1#8 then .ok (.sknp (fieldX w))
    else .error (.undecodedE w)

/-- Family 0xF: selected by the low byte. -/
def decodeF (w : Word) : Except DecodeError Instr :=
  if fieldNN w = 0x07#8 then .ok (.ldVxDt (fieldX w))
  else if fieldNN w = 0x0A#8 then .ok (.ldVxK (fieldX w))
  else if fieldNN w = 0x15#8 then .ok (.ldDtVx (fieldX w))
  else if fieldNN w = 0x18#8 then .ok (.ldStVx (fieldX w))
  else if fieldNN w = 0x1E#8 then .ok (.addI (fieldX w))
  else if fieldNN w = 0x29#8 then .ok (.ldF (fieldX w))
  else if fieldNN w = 0x33#8 then .ok (.ldB (fieldX w))
  else if fieldNN w = 0x55#8 then .ok (.stRegs (fieldX w))
  else if fieldNN w = 0x65#8 then .ok (.ldRegs (fieldX w))
  else .error (.undecodedF w)

/-- The operation a word stands for (R93–R97), or the name of its rejection (R100). -/
def decodeWord (m : SecondaryDecode) (w : Word) : Except DecodeError Instr :=
  match (fieldOp w).toNat with
  | 0x0 => decode0 m w
  | 0x1 => .ok (.jp (fieldNNN w))
  | 0x2 => .ok (.call (fieldNNN w))
  | 0x3 => .ok (.seByte (fieldX w) (fieldNN w))
  | 0x4 => .ok (.sneByte (fieldX w) (fieldNN w))
  | 0x5 => .ok (.seReg (fieldX w) (fieldY w))
  | 0x6 => .ok (.ldByte (fieldX w) (fieldNN w))
  | 0x7 => .ok (.addByte (fieldX w) (fieldNN w))
  | 0x8 => decode8 w
  | 0x9 => .ok (.sneReg (fieldX w) (fieldY w))
  | 0xA => .ok (.ldI (fieldNNN w))
  | 0xB => .ok (.jpV0 (fieldNNN w))
  | 0xC => .ok (.rnd (fieldX w) (fieldNN w))
  | 0xD => .ok (.drw (fieldX w) (fieldY w) (fieldN w))
  | 0xE => decodeE m w
  | _   => decodeF w

/-- Decoding bytes: two are consumed, high byte first, and the rest comes back (R90, R70). -/
def decode (m : SecondaryDecode) : List Byte → Except DecodeError (Instr × List Byte)
  | hi :: lo :: rest =>
    match decodeWord m (wordOfBytes hi lo) with
    | .ok i    => .ok (i, rest)
    | .error e => .error e
  | [_] => .error .truncated
  | []  => .error .truncated

/-! The encoder: the canonical words of R97. -/

/-- Format XB: family, X, NN (R91). -/
def packXB (op : BitVec 4) (x : Reg) (nn : Byte) : Word := op ++ BitVec.ofFin (w := 4) x ++ nn
/-- Formats XY and XYN: family, X, Y, low nibble (R91). -/
def packXYN (op : BitVec 4) (x y : Reg) (n : BitVec 4) : Word :=
  op ++ BitVec.ofFin (w := 4) x ++ (BitVec.ofFin (w := 4) y ++ n)
/-- Format A: family, NNN (R91). -/
def packA (op : BitVec 4) (addr : Word) : Word := op ++ addr.extractLsb' 0 12

/-- The canonical word of an instruction (R97). Ignored bits are those of the canonical word: zero in the low nibble of SE
and SNE Vx,Vy and in the Y field of SHR and SHL (R98). -/
def encode : Instr → Word
  | .cls          => 0x00E0#16
  | .ret          => 0x00EE#16
  | .jp addr      => packA 0x1#4 addr
  | .call addr    => packA 0x2#4 addr
  | .seByte x nn  => packXB 0x3#4 x nn
  | .sneByte x nn => packXB 0x4#4 x nn
  | .seReg x y    => packXYN 0x5#4 x y 0x0#4
  | .ldByte x nn  => packXB 0x6#4 x nn
  | .addByte x nn => packXB 0x7#4 x nn
  | .ldReg x y    => packXYN 0x8#4 x y 0x0#4
  | .orReg x y    => packXYN 0x8#4 x y 0x1#4
  | .andReg x y   => packXYN 0x8#4 x y 0x2#4
  | .xorReg x y   => packXYN 0x8#4 x y 0x3#4
  | .addReg x y   => packXYN 0x8#4 x y 0x4#4
  | .subReg x y   => packXYN 0x8#4 x y 0x5#4
  | .shr x        => packXYN 0x8#4 x 0 0x6#4
  | .subnReg x y  => packXYN 0x8#4 x y 0x7#4
  | .shl x        => packXYN 0x8#4 x 0 0xE#4
  | .sneReg x y   => packXYN 0x9#4 x y 0x0#4
  | .ldI addr     => packA 0xA#4 addr
  | .jpV0 addr    => packA 0xB#4 addr
  | .rnd x nn     => packXB 0xC#4 x nn
  | .drw x y n    => packXYN 0xD#4 x y n
  | .skp x        => packXB 0xE#4 x 0x9E#8
  | .sknp x       => packXB 0xE#4 x 0xA1#8
  | .ldVxDt x     => packXB 0xF#4 x 0x07#8
  | .ldVxK x      => packXB 0xF#4 x 0x0A#8
  | .ldDtVx x     => packXB 0xF#4 x 0x15#8
  | .ldStVx x     => packXB 0xF#4 x 0x18#8
  | .addI x       => packXB 0xF#4 x 0x1E#8
  | .ldF x        => packXB 0xF#4 x 0x29#8
  | .ldB x        => packXB 0xF#4 x 0x33#8
  | .stRegs x     => packXB 0xF#4 x 0x55#8
  | .ldRegs x     => packXB 0xF#4 x 0x65#8

/-- The high byte of a word, which lies at the lower address (20_memory.md R71). -/
def hiByte (w : Word) : Byte := w.extractLsb' 8 8
/-- The low byte of a word. -/
def loByte (w : Word) : Byte := w.extractLsb' 0 8

/-- The two bytes of a word as memory holds them. -/
def bytesOfWord (w : Word) : List Byte := [hiByte w, loByte w]

/-- The bytes of an instruction. -/
def encodeBytes (i : Instr) : List Byte := bytesOfWord (encode i)

/-- The word the host's table numbering names: `nbits` bits of `w`, all above them zero. Every instruction of this core
has one 16-bit word (R90). -/
def tableWord (nbits w : Nat) : Word := BitVec.ofNat 16 (w % 2 ^ nbits)

/-- What the decoder reads from an instruction whose bits are `w`, laid out big-endian, under the default
`SECONDARY_DECODE` (the table's match and mask are those of `NIBBLE_LOW`, R97). -/
def decodeTableWord (nbits w : Nat) : Option Instr :=
  match decode Config.defaults.secondaryDecode (bytesOfWord (tableWord nbits w)) with
  | .ok (i, _) => some i
  | .error _   => none

end Sys2Proof
end

