-- ==== Sys2Proof/Machine/State.lean ====
section
/-! DEFINITION. The state of the SC8E core (spec/10_state.md R20), its faults, and its reset value (R47). -/

namespace Sys2Proof.Machine

/-- Memory: the cells whose byte differs from the reset contents, as (address, byte) pairs with strictly rising
addresses (20_memory.md R60; what an unlisted address reads as is `unlisted` in Machine/Ops.lean). -/
abbrev Memory := List Host.Cell

/-- The display: 2048 one-bit pixels, `pixels[2047:0]` at the block's boundary (60_exceptions.md R280); pixel (x, y) is bit
`x + y*64`, and 1 is lit (10_state.md R37, R38). -/
abbrev Display := BitVec 2048

/-- The fault kinds of 60_exceptions.md R261, in the order of their codes 1 to 5. -/
inductive FaultKind where
  | stackOverflow
  | stackUnderflow
  | memoryBounds
  | fontWrite
  | keyIndex
  deriving DecidableEq, Repr

/-- The fault record `(kind, pc, addr)` of 10_state.md R43. `addr` is the value R261's table records: a byte address, sp,
or a key number. -/
structure FaultRecord where
  kind : FaultKind
  pc   : Word
  addr : Nat
  deriving DecidableEq, Repr

/-- The whole state of the core: the components of R20, then two fields of the model's own. -/
structure State where
  /-- Memory (R20; 20_memory.md). -/
  mem    : Memory
  /-- V0–VF (R21); VF is also the flag register (R22). -/
  v      : Vector Byte 16
  /-- The index register `I` (R25). -/
  idx    : Word
  /-- The program counter (R27). -/
  pc     : Word
  /-- The call stack's 16 slots (R30). -/
  stack  : Vector Word 16
  /-- The stack pointer, an integer 0..16: the next free slot (R30, R31). -/
  sp     : Fin 17
  /-- The delay timer (R34). -/
  dt     : Byte
  /-- The sound timer (R34). -/
  st     : Byte
  /-- The display (R37). -/
  disp   : Display
  /-- "Redraw requested" (R40). -/
  redraw : Bool
  /-- The key vector (R41). -/
  keys   : Vector Bool 16
  /-- The audio trigger (R42). -/
  audio  : Bool
  /-- The fault record, or none (R43). -/
  fault  : Option FaultRecord
  /-- MODEL: the parameters of 00_scope.md R8, constants of one machine (log 1). -/
  params : Params
  /-- MODEL: how many draws RND has taken; the next draw is `Config.freeByte draws` (log 2). -/
  draws  : Nat
  deriving DecidableEq, Repr

/-- Why a step has no successor. -/
inductive Fault where
  /-- Raised by `step` alone, on a core whose fault record is set: "a faulted core has no further cycle" (R262). Safe: the
  model stops where the spec gives no successor. The cycle that RAISES a fault is an ordinary next state. -/
  | coreFaulted (r : FaultRecord)
  deriving DecidableEq, Repr

/-- Why an instruction has no meaning. -/
inductive Refusal where
  /-- Raised by `exec` for a constructor without a meaning; no arm of this model raises it. Safe. -/
  | notModelled (mnemonic : String)
  deriving DecidableEq, Repr

/-- What a meaning answers. -/
abbrev Result := Host.Outcome State Fault Refusal

/-- Reset (R47, 70_reset_and_hazards.md R290): "zeroing all fields and re-installing the font table", pc = 0x200, no
fault. A machine's parameters are constants and its draws are not replayed, so both are kept (logs 1, 2). -/
def State.resetWith (p : Params) (draws : Nat) : State where
  mem    := []
  v      := Vector.replicate 16 0
  idx    := 0
  pc     := 0x200
  stack  := Vector.replicate 16 0
  sp     := 0
  dt     := 0
  st     := 0
  disp   := 0
  redraw := false
  keys   := Vector.replicate 16 false
  audio  := false
  fault  := none
  params := p
  draws  := draws

/-- The machine right after reset, with the default parameters of R8. -/
def State.reset : State := State.resetWith Config.defaults 0

end Sys2Proof.Machine
end

