-- ==== Sys2Proof/Machine/Ops.lean ====
section
/-! DEFINITION. The named operations over the state: raising a fault, registers, memory, the pc, the undecoded word and
the timer tick (spec/10_state.md, spec/20_memory.md, spec/40_cycle.md, spec/60_exceptions.md). -/

namespace Sys2Proof.Machine

/-! ## Faults (60_exceptions.md R262) -/

/-- What `raise Fault(kind, info)` is given: the kind and the value `fault.addr` records (R261). -/
structure Trap where
  kind : FaultKind
  addr : Nat
  deriving DecidableEq, Repr

/-- `raise Fault(kind, info)`: the one way a fault is taken. It writes nothing but the fault record, which names the
executing word's address (R262). The core has no trap entry and no return from one (R266, R267). -/
def raise (e : Trap) (s : State) : Result :=
  .next { s with fault := some { kind := e.kind, pc := s.pc, addr := e.addr } }

/-- The end of an operation that may fail: its next state, or the fault raised in the state it began in (R69, R263). -/
def orRaise (s : State) : Except Trap State → Result
  | .ok t    => .next t
  | .error e => raise e s

/-! ## Registers (10_state.md R11, R21–R32) -/

/-- `V[x]`. -/
def State.reg (s : State) (x : Reg) : Byte := s.v[x]
/-- `V[x] <- b`. -/
def State.setReg (s : State) (x : Reg) (b : Byte) : State := { s with v := s.v.set x b }
/-- `I <- a`. -/
def State.setIdx (s : State) (a : Word) : State := { s with idx := a }
/-- `pc <- a`. -/
def State.setPc (s : State) (a : Word) : State := { s with pc := a }
/-- `DT <- b`. -/
def State.setDt (s : State) (b : Byte) : State := { s with dt := b }
/-- `ST <- b`. -/
def State.setSt (s : State) (b : Byte) : State := { s with st := b }

/-- VF, the flag register (R17, R22). -/
def vf : Reg := 15

/-! ## The program counter (40_cycle.md R122; arithmetic modulo 65536, 10_state.md R29) -/

/-- `pc <- pc + 2`. -/
def State.advance (s : State) : State := s.setPc (s.pc + 2)
/-- A skip: `pc + 4` if the condition holds, else `pc + 2` (41_control_flow.md R148). -/
def State.skipIf (s : State) (c : Bool) : State := s.setPc (if c then s.pc + 4 else s.pc + 2)

/-! ## Memory (20_memory.md) -/

/-- What an address that memory does not list reads as: the reset contents, `FONT` below 0x050 and 0x00 above
(10_state.md R47). -/
def unlisted (f : Font) (a : Nat) : Byte := if h : a < 80 then f[a] else 0

/-- The listed byte at an address, if any. -/
def lookup (a : Nat) : Memory → Option Byte
  | []      => none
  | c :: cs => if c.1 = a then some c.2 else lookup a cs

/-- The byte at an address. -/
def readMem (f : Font) (m : Memory) (a : Nat) : Byte := (lookup a m).getD (unlisted f a)

/-- List a cell, in its place. -/
def insertCell (a : Nat) (b : Byte) : Memory → Memory
  | []      => [(a, b)]
  | c :: cs =>
    if a < c.1 then (a, b) :: c :: cs
    else if a = c.1 then (a, b) :: cs
    else c :: insertCell a b cs

/-- Take an address off the list. -/
def removeCell (a : Nat) : Memory → Memory
  | []      => []
  | c :: cs => if c.1 = a then removeCell a cs else c :: removeCell a cs

/-- Write a byte, keeping the canonical form: a cell that holds its reset contents is not listed. -/
def writeMem (f : Font) (m : Memory) (a : Nat) (b : Byte) : Memory :=
  if b = unlisted f a then removeCell a m else insertCell a b m

/-- The canonical form: strictly rising addresses, all inside the 4096 bytes, and no cell that holds what an unlisted
address reads as. -/
abbrev Memory.wf (f : Font) (m : Memory) : Prop :=
  m.Pairwise (fun c d => c.1 < d.1) ∧ ∀ c ∈ m, c.1 < 4096 ∧ c.2 ≠ unlisted f c.1

/-- `mem[a]`, without a check. -/
def State.byteAt (s : State) (a : Nat) : Byte := readMem s.params.font s.mem a
/-- `mem[a] <- b`, without a check. -/
def State.setByte (s : State) (a : Nat) (b : Byte) : State := { s with mem := writeMem s.params.font s.mem a b }

/-- `MemRead(a, 1)` (R66). -/
def memRead (s : State) (a : Nat) : Except Trap Byte :=
  if a > 0xFFF then .error ⟨.memoryBounds, a⟩ else .ok (s.byteAt a)

/-- `MemWrite(a, 1, b)` (R67): above 0xFFF a bounds fault, in the font region a font-write fault (R63). -/
def memWrite (s : State) (a : Nat) (b : Byte) : Except Trap State :=
  if a > 0xFFF then .error ⟨.memoryBounds, a⟩
  else if a ≤ 0x04F then .error ⟨.fontWrite, a⟩
  else .ok (s.setByte a b)

/-- The loader's write of consecutive bytes, with no font check (70_reset_and_hazards.md R291). -/
def loaderWrite (s : State) (a : Nat) : List Byte → State
  | []      => s
  | b :: bs => loaderWrite (s.setByte a b) (a + 1) bs

/-! ## The cycle (40_cycle.md) -/

/-- The instruction fetch: two consecutive bytes at pc, big-endian, at any alignment (R121; 20_memory.md R70, R72). -/
def fetch (s : State) : Except Trap Word :=
  match memRead s s.pc.toNat with
  | .error e => .error e
  | .ok hi =>
    match memRead s (s.pc.toNat + 1) with
    | .error e => .error e
    | .ok lo => .ok (wordOfBytes hi lo)

/-- `UNDECODED_PC_STEP` as a number. -/
def undecodedBytes : UndecodedStep → Word
  | .zero => 0
  | .two  => 2

/-- An undecoded word changes pc alone (R124). -/
def undecoded (s : State) : State := s.setPc (s.pc + undecodedBytes s.params.undecodedStep)

/-- One timer's decrement: toward zero, never below (R126). -/
def countDown (b : Byte) : Byte := if b = 0 then 0 else b - 1

/-- The timer tick and the audio trigger (R126, R127). -/
def tick (s : State) : State :=
  { s with audio := decide (s.st = 1), dt := countDown s.dt, st := countDown s.st }

/-- The end of a cycle: the tick, unless the operation raised a fault (R125, R130). -/
def endCycle : Result → Result
  | .next t    => .next (if t.fault.isSome then t else tick t)
  | .fault r   => .fault r
  | .refused r => .refused r

/-- Placing a word where the fetch reads it: at pc, with no fault pending. Where pc leaves no room for two bytes the word
goes to the entry point 0x200 and pc with it (log 6). -/
def placeWord (s : State) (w : Word) : State :=
  let a : Word := if s.pc.toNat ≤ 0xFFE then s.pc else 0x200
  loaderWrite { s with pc := a, fault := none } a.toNat (bytesOfWord w)

end Sys2Proof.Machine
end

