-- ==== Sys2Proof/Machine/Flags.lean ====
section
/-! DEFINITION. The flag computations: VF's values (spec/42_alu.md R171, R178–R182; spec/45_index_memory.md R241) and the
order of the flag write and the result write under `VF_ALIAS` (R170). -/

namespace Sys2Proof.Machine

/-- A flag as VF holds it: 1 or 0. -/
def flagByte (c : Bool) : Byte := if c then 1 else 0

/-- ADD: the unsigned carry out of bit 7 (R178). -/
def carryFlag (a b : Byte) : Byte := flagByte (decide (a.toNat + b.toNat > 255))
/-- SUB and SUBN: 1 if the first operand is strictly greater, "no borrow" (R179, R181, C7). -/
def greaterFlag (a b : Byte) : Byte := flagByte (decide (a.toNat > b.toNat))
/-- SHR: the bit shifted out on the right (R180). -/
def lowBitFlag (a : Byte) : Byte := flagByte (a.getLsbD 0)
/-- SHL: the bit shifted out on the left (R182). -/
def highBitFlag (a : Byte) : Byte := flagByte (a.getLsbD 7)
/-- ADD I: whether the exact sum exceeds 0xFFF (R241). -/
def indexFlag (i : Word) (a : Byte) : Byte := flagByte (decide (i.toNat + a.toNat > 0xFFF))

/-- `FlagOp` (R170): the flag and the result in the order of `VF_ALIAS`, then pc + 2. Under `SEQUENTIAL` the operands of
the result are read again after the flag is written. -/
def flagOp (x y : Reg) (flagf resf : Byte → Byte → Byte) (s : State) : State :=
  let a := s.reg x
  let b := s.reg y
  let t := match s.params.vfAlias with
    | .sequential =>
      let s1 := s.setReg vf (flagf a b)
      s1.setReg x (resf (s1.reg x) (s1.reg y))
    | .resultLast => (s.setReg vf (flagf a b)).setReg x (resf a b)
    | .flagLast   => (s.setReg x (resf a b)).setReg vf (flagf a b)
  t.advance

/-- ADD I,Vx (R241): the flag from the exact sum, I modulo 65536, and under `SEQUENTIAL` V[X] read again after the flag is
written. -/
def addIndex (x : Reg) (s : State) : State :=
  let a := s.reg x
  let s1 := s.setReg vf (indexFlag s.idx a)
  let t := match s.params.vfAlias with
    | .sequential => s1.setIdx (s1.idx + (s1.reg x).setWidth 16)
    | .resultLast => s1.setIdx (s1.idx + a.setWidth 16)
    | .flagLast   => s1.setIdx (s1.idx + a.setWidth 16)
  t.advance

end Sys2Proof.Machine
end

