-- ==== Sys2Proof/Machine/Operands.lean ====
section
/-! DEFINITION. The operand forms of the instructions: blocks of memory indexed by I (spec/45_index_memory.md R246), runs
of registers V0..VX, key numbers (spec/44_input_timers.md) and decimal digits. -/

namespace Sys2Proof.Machine

/-- Read `n` bytes upward from `a`, the first address above 0xFFF failing (R246; 20_memory.md R66, R69). -/
def readBlock (s : State) (a : Nat) : Nat → Except Trap (List Byte)
  | 0     => .ok []
  | n + 1 =>
    match memRead s a with
    | .error e => .error e
    | .ok b =>
      match readBlock s (a + 1) n with
      | .error e => .error e
      | .ok bs   => .ok (b :: bs)

/-- Write bytes upward from `a`; the first address that fails is the fault's, and then no byte is written, since the
state written so far is dropped (R246; 20_memory.md R67, R69). -/
def writeBlock (s : State) (a : Nat) : List Byte → Except Trap State
  | []      => .ok s
  | b :: bs =>
    match memWrite s a b with
    | .error e => .error e
    | .ok t    => writeBlock t (a + 1) bs

/-- The values of V0..VX, in order (R244). -/
def regsUpTo (s : State) (x : Reg) : List Byte := s.v.toList.take (x.val + 1)

/-- Write consecutive registers from number `k` (R245). -/
def fillRegs (v : Vector Byte 16) (k : Nat) : List Byte → Vector Byte 16
  | []      => v
  | b :: bs => fillRegs (v.setIfInBounds k b) (k + 1) bs

/-- The hundreds, tens and ones digits of a byte (R243). -/
def digits (b : Byte) : List Byte :=
  [BitVec.ofNat 8 (b.toNat / 100), BitVec.ofNat 8 (b.toNat / 10 % 10), BitVec.ofNat 8 (b.toNat % 10)]

/-- The state of the key whose number a register holds; a number above 15 names no key (R220, R221). -/
def keyAt (s : State) (b : Byte) : Except Trap Bool :=
  if h : b.toNat < 16 then .ok s.keys[b.toNat] else .error ⟨.keyIndex, b.toNat⟩

/-- The key numbers 0 to 15, in scanning order. -/
def keyOrder : List Reg := [0, 1, 2, 3, 4, 5, 6, 7, 8, 9, 10, 11, 12, 13, 14, 15]

/-- The scan of LD Vx,K: from low to high, the last pressed key found wins (R223). -/
def scanKeys (keys : Vector Bool 16) : Option Reg :=
  keyOrder.foldl (fun found k => if keys[k] then some k else found) none

end Sys2Proof.Machine
end

