-- ==== Sys2Proof/Machine/Alu.lean ====
section
/-! DEFINITION. Register loads, arithmetic, logic, shifts and RND (spec/42_alu.md). None raises a fault. -/

namespace Sys2Proof.Machine

/-- LD Vx,byte (R172). -/
def execLdByte (x : Reg) (nn : Byte) (s : State) : Result := .next (s.setReg x nn).advance
/-- ADD Vx,byte (R173): modulo 256, no flag. -/
def execAddByte (x : Reg) (nn : Byte) (s : State) : Result := .next (s.setReg x (s.reg x + nn)).advance
/-- LD Vx,Vy (R174). -/
def execLdReg (x y : Reg) (s : State) : Result := .next (s.setReg x (s.reg y)).advance
/-- OR Vx,Vy (R175). -/
def execOrReg (x y : Reg) (s : State) : Result := .next (s.setReg x (s.reg x ||| s.reg y)).advance
/-- AND Vx,Vy (R176). -/
def execAndReg (x y : Reg) (s : State) : Result := .next (s.setReg x (s.reg x &&& s.reg y)).advance
/-- XOR Vx,Vy (R177). -/
def execXorReg (x y : Reg) (s : State) : Result := .next (s.setReg x (s.reg x ^^^ s.reg y)).advance

/-- ADD Vx,Vy (R178). -/
def execAddReg (x y : Reg) (s : State) : Result := .next (flagOp x y carryFlag (fun a b => a + b) s)
/-- SUB Vx,Vy (R179). -/
def execSubReg (x y : Reg) (s : State) : Result := .next (flagOp x y greaterFlag (fun a b => a - b) s)
/-- SHR Vx (R180): the source is V[X], never V[Y]. -/
def execShr (x : Reg) (s : State) : Result := .next (flagOp x x (fun a _ => lowBitFlag a) (fun a _ => a >>> 1) s)
/-- SUBN Vx,Vy (R181). -/
def execSubnReg (x y : Reg) (s : State) : Result :=
  .next (flagOp x y (fun a b => greaterFlag b a) (fun a b => b - a) s)
/-- SHL Vx (R182). -/
def execShl (x : Reg) (s : State) : Result := .next (flagOp x x (fun a _ => highBitFlag a) (fun a _ => a <<< 1) s)

/-- RND Vx,byte (R183): one fresh draw, any byte, masked by NN. -/
def execRnd (x : Reg) (nn : Byte) (s : State) : Result :=
  .next { (s.setReg x (Config.freeByte s.draws &&& nn)).advance with draws := s.draws + 1 }

end Sys2Proof.Machine
end

