-- ==== Sys2Proof/Machine/ControlFlow.lean ====
section
/-! DEFINITION. Control transfer and skips (spec/41_control_flow.md). In every meaning `s.pc` is the address of the
executing word (10_state.md R27). -/

namespace Sys2Proof.Machine

/-- RET (R140): pops a slot, which keeps its value (10_state.md R32), and goes to the word after the CALL. -/
def execRet (s : State) : Result :=
  if h : s.sp.val = 0 then raise ⟨.stackUnderflow, s.sp.val⟩ s
  else
    let k : Fin 16 := ⟨s.sp.val - 1, by omega⟩
    .next { s with sp := k.castSucc, pc := s.stack[k] + 2 }

/-- JP addr (R141). -/
def execJp (addr : Word) (s : State) : Result := .next (s.setPc addr)

/-- CALL addr (R142): pushes the CALL's own address. -/
def execCall (addr : Word) (s : State) : Result :=
  if h : s.sp.val = 16 then raise ⟨.stackOverflow, s.sp.val⟩ s
  else
    let k : Fin 16 := ⟨s.sp.val, by omega⟩
    .next { s with stack := s.stack.set k s.pc, sp := k.succ, pc := addr }

/-- SE Vx,byte (R143). -/
def execSeByte (x : Reg) (nn : Byte) (s : State) : Result := .next (s.skipIf (decide (s.reg x = nn)))
/-- SNE Vx,byte (R144). -/
def execSneByte (x : Reg) (nn : Byte) (s : State) : Result := .next (s.skipIf (decide (s.reg x ≠ nn)))
/-- SE Vx,Vy (R145). -/
def execSeReg (x y : Reg) (s : State) : Result := .next (s.skipIf (decide (s.reg x = s.reg y)))
/-- SNE Vx,Vy (R146). -/
def execSneReg (x y : Reg) (s : State) : Result := .next (s.skipIf (decide (s.reg x ≠ s.reg y)))

/-- JP V0,addr (R147): not reduced modulo 4096. -/
def execJpV0 (addr : Word) (s : State) : Result := .next (s.setPc (addr + (s.reg 0).setWidth 16))

end Sys2Proof.Machine
end

