-- ==== Sys2Proof/Machine/Display.lean ====
section
/-! DEFINITION. CLS, DRW and the XOR blitter (spec/43_display.md). -/

namespace Sys2Proof.Machine

/-- The cell of a pixel, its coordinates wrapped modulo 64 and 32 (R201; index `x + y*64`, 10_state.md R37). -/
def cellAt (x y : Nat) : Fin 2048 := ⟨x % 64 + y % 32 * 64, by omega⟩

/-- The cells under the set bits of one sprite row; bit 7 is column offset 0 (R202, R206). -/
def rowCells (x y : Nat) (row : Byte) : List (Fin 2048) :=
  (([0, 1, 2, 3, 4, 5, 6, 7] : List Nat).filter fun c => row.getLsbD (7 - c)).map fun c => cellAt (x + c) y

/-- The cells under the set bits of a sprite, row by row (R202). -/
def spriteCells (x y : Nat) : List Byte → List (Fin 2048)
  | []          => []
  | row :: rows => rowCells x y row ++ spriteCells x (y + 1) rows

/-- Toggle one cell (XOR with 1), noting a collision if it was lit (R202; 10_state.md R38). -/
def toggleCell (p : Display × Bool) (c : Fin 2048) : Display × Bool :=
  (p.1 ^^^ BitVec.twoPow 2048 c.val, p.2 || p.1.getLsbD c.val)

/-- Toggle cells one after another: the display they leave, and whether any toggle collided. -/
def blit (d : Display) (cells : List (Fin 2048)) : Display × Bool := cells.foldl toggleCell (d, false)

/-- CLS (R200). -/
def execCls (s : State) : Result :=
  .next { s.advance with disp := 0, redraw := true }

/-- The blit of DRW once its rows are read: coordinates from before any write, VF written after every toggle (R203). -/
def drawRows (x y : Reg) (rows : List Byte) (s : State) : State :=
  let p := blit s.disp (spriteCells (s.reg x).toNat (s.reg y).toNat rows)
  { (s.setReg vf (flagByte p.2)).advance with disp := p.1, redraw := true }

/-- DRW Vx,Vy,N (R202): the rows are the N bytes at I; N = 0 reads none and cannot fault (R204). -/
def execDrw (x y : Reg) (n : BitVec 4) (s : State) : Result :=
  match readBlock s s.idx.toNat n.toNat with
  | .error e => raise e s
  | .ok rows => .next (drawRows x y rows s)

end Sys2Proof.Machine
end

