-- ==== Sys2Proof/Machine/IndexMemory.lean ====
section
/-! DEFINITION. The index register and memory through it (spec/45_index_memory.md). No block operation changes I (R246). -/

namespace Sys2Proof.Machine

/-- LD I,addr (R240). -/
def execLdI (addr : Word) (s : State) : Result := .next (s.setIdx addr).advance
/-- ADD I,Vx (R241). -/
def execAddI (x : Reg) (s : State) : Result := .next (addIndex x s)
/-- LD F,Vx (R242): the whole byte times 5 (C3). -/
def execLdF (x : Reg) (s : State) : Result := .next (s.setIdx ((s.reg x).setWidth 16 * 5)).advance

/-- LD B,Vx (R243): hundreds at I, tens at I + 1, ones at I + 2. -/
def execLdB (x : Reg) (s : State) : Result :=
  match writeBlock s s.idx.toNat (digits (s.reg x)) with
  | .error e => raise e s
  | .ok t    => .next t.advance

/-- LD [I],Vx (R244). -/
def execStRegs (x : Reg) (s : State) : Result :=
  match writeBlock s s.idx.toNat (regsUpTo s x) with
  | .error e => raise e s
  | .ok t    => .next t.advance

/-- LD Vx,[I] (R245). -/
def execLdRegs (x : Reg) (s : State) : Result :=
  match readBlock s s.idx.toNat (x.val + 1) with
  | .error e  => raise e s
  | .ok bytes => .next { s.advance with v := fillRegs s.v 0 bytes }

end Sys2Proof.Machine
end

