-- ==== Sys2Proof/Machine/InputTimers.lean ====
section
/-! DEFINITION. Key input and timer operations (spec/44_input_timers.md). -/

namespace Sys2Proof.Machine

/-- SKP Vx (R220): V[X] is the key's number; its level is tested. -/
def execSkp (x : Reg) (s : State) : Result :=
  match keyAt s (s.reg x) with
  | .error e    => raise e s
  | .ok pressed => .next (s.skipIf pressed)

/-- SKNP Vx (R221). -/
def execSknp (x : Reg) (s : State) : Result :=
  match keyAt s (s.reg x) with
  | .error e    => raise e s
  | .ok pressed => .next (s.skipIf (!pressed))

/-- LD Vx,DT (R222): the value before this cycle's tick. -/
def execLdVxDt (x : Reg) (s : State) : Result := .next (s.setReg x s.dt).advance

/-- LD Vx,K (R223): with no key pressed nothing changes, pc included, and the next cycle issues the word again. -/
def execLdVxK (x : Reg) (s : State) : Result :=
  match scanKeys s.keys with
  | none   => .next s
  | some k => .next (s.setReg x (BitVec.ofNat 8 k.val)).advance

/-- LD DT,Vx (R224). -/
def execLdDtVx (x : Reg) (s : State) : Result := .next (s.setDt (s.reg x)).advance
/-- LD ST,Vx (R225). -/
def execLdStVx (x : Reg) (s : State) : Result := .next (s.setSt (s.reg x)).advance

end Sys2Proof.Machine
end

