-- ==== Sys2Proof/Machine/Step.lean ====
section
/-! DEFINITION. One cycle (spec/40_cycle.md R120): fetch, decode, one operation or the undecoded word, then the tick. -/

namespace Sys2Proof.Machine

/-- `step()` (R120). A fetch fault ends the cycle before decode (R121); an undecoded word is no fault (R124); a faulted
core has no further cycle (60_exceptions.md R262). -/
def step (s : State) : Host.Outcome State Fault Refusal :=
  match s.fault with
  | some r => .fault (.coreFaulted r)
  | none =>
    match fetch s with
    | .error e => raise e s
    | .ok w =>
      match decodeWord s.params.secondaryDecode w with
      | .ok i    => endCycle (exec i s)
      | .error _ => endCycle (.next (undecoded s))

/-- `s` with an instruction placed where `step` fetches its next one (log 6). -/
def State.withFetchWord (s : State) (nbits w : Nat) : State := placeWord s (tableWord nbits w)

end Sys2Proof.Machine
end

