-- ==== Sys2Proof/Machine/Transactions.lean ====
section
/-! DEFINITION. The host interface (spec/60_exceptions.md R273–R280; spec/70_reset_and_hazards.md R290–R294): every
transaction the host has, each one atomic request between cycles, served whole before the next. -/

namespace Sys2Proof.Machine

/-- What the host sends (R273). -/
inductive Request where
  | load (bytes : List Byte)
  | setKeys (keys : Vector Bool 16)
  | step
  | readPixels
  | readRedraw
  | clearRedraw
  | readAudio
  | readFault
  deriving DecidableEq, Repr

/-- What the host gets back (R273). -/
inductive Response where
  | nothing
  | loadOk (ok : Bool)
  | pixels (d : Display)
  | redraw (b : Bool)
  | audio (b : Bool)
  | fault (f : Option FaultRecord)
  deriving DecidableEq, Repr

/-- `PROG_MAX` (00_scope.md R7). -/
def progMax : Nat := 3584

/-- Reset of a running machine: every component of the spec's state at its reset value (R290). The parameters are the
machine's constants and the draws are not replayed (logs 1, 2). -/
def resetState (s : State) : State := State.resetWith s.params s.draws

/-- `load(bytes)` (R291–R293): a reset, then the image at 0x200 if it fits; an image that does not fit leaves the clean
reset (C1). -/
def loadImage (bytes : List Byte) (s : State) : State × Bool :=
  if bytes.length > progMax then (resetState s, false)
  else ((loaderWrite (resetState s) 0x200 bytes).setPc 0x200, true)

/-- `setKeys` (R274): the key vector replaced wholesale. -/
def setKeys (keys : Vector Bool 16) (s : State) : State := { s with keys := keys }

/-- `clear redraw` (R278). -/
def clearRedraw (s : State) : State := { s with redraw := false }

/-- `step()` as the host sees it (R276): one cycle, and nothing on a faulted core. -/
def stepRequest (s : State) : State :=
  match step s with
  | .next t    => t
  | .fault _   => s
  | .refused _ => s

/-- One transaction: the state it leaves and what the host gets back (R273, R277). -/
def serve (r : Request) (s : State) : State × Response :=
  match r with
  | .load bytes   => ((loadImage bytes s).1, .loadOk (loadImage bytes s).2)
  | .setKeys keys => (setKeys keys s, .nothing)
  | .step         => (stepRequest s, .nothing)
  | .readPixels   => (s, .pixels s.disp)
  | .readRedraw   => (s, .redraw s.redraw)
  | .clearRedraw  => (clearRedraw s, .nothing)
  | .readAudio    => (s, .audio s.audio)
  | .readFault    => (s, .fault s.fault)

end Sys2Proof.Machine
end

