-- ==== Sys2Proof/Safety.lean ====
section
/-! DEFINITION. What counts as a good state and a quiet change, in the terms the statements use: components and frames, the
invariants every step keeps, the parked state of spec/40_cycle.md R132. -/

namespace Sys2Proof.Machine

/-- The pieces of the state (10_state.md R20, and the model's two). -/
inductive Component where
  | mem | regs | idx | pc | stack | sp | dt | st | disp | redraw | keys | audio | fault | params | draws
  deriving DecidableEq, Repr

/-- One piece is the same in both states; memory is compared byte by byte, through the model's own read. -/
def Unchanged (c : Component) (s t : State) : Prop :=
  match c with
  | .mem    => ∀ a, t.byteAt a = s.byteAt a
  | .regs   => ∀ r, t.reg r = s.reg r
  | .idx    => t.idx = s.idx
  | .pc     => t.pc = s.pc
  | .stack  => t.stack = s.stack
  | .sp     => t.sp = s.sp
  | .dt     => t.dt = s.dt
  | .st     => t.st = s.st
  | .disp   => t.disp = s.disp
  | .redraw => t.redraw = s.redraw
  | .keys   => t.keys = s.keys
  | .audio  => t.audio = s.audio
  | .fault  => t.fault = s.fault
  | .params => t.params = s.params
  | .draws  => t.draws = s.draws

/-- Everything but the named pieces is unchanged. -/
def FrameBut (written : List Component) (s t : State) : Prop := ∀ c, c ∉ written → Unchanged c s t

/-- Every register but the named ones is unchanged. -/
def RegsBut (written : List Reg) (s t : State) : Prop := ∀ r, r ∉ written → t.reg r = s.reg r

/-- Every byte outside the `n` bytes from `a` is unchanged. -/
def BytesBut (a n : Nat) (s t : State) : Prop := ∀ c, ¬ (a ≤ c ∧ c < a + n) → t.byteAt c = s.byteAt c

/-- The font region holds `FONT` (20_memory.md R63, R64). -/
def FontIntact (s : State) : Prop := ∀ a, (h : a < 80) → s.byteAt a = s.params.font[a]

/-- pc is at most 0x10FE, and every stack slot holds the address of a word that was fetched (10_state.md R29). -/
def PcBound (s : State) : Prop := s.pc.toNat ≤ 0x10FE ∧ ∀ k : Fin 16, s.stack[k].toNat ≤ 0xFFE

/-- Memory is in its canonical form. -/
abbrev MemCanonical (s : State) : Prop := Memory.wf s.params.font s.mem

/-- The invariant of the machine. -/
def MachineInv (s : State) : Prop := MemCanonical s ∧ FontIntact s ∧ PcBound s

/-- A parked state: not faulted, and the word at pc is a jump to itself (40_cycle.md R132, decision D26). -/
def Parked (s : State) : Prop := s.fault = none ∧ ∃ w, fetch s = .ok w ∧ fieldOp w = 0x1#4 ∧ fieldNNN w = s.pc

/-- A run of host transactions, in the host's order (60_exceptions.md R280). -/
def serveAll : List Request → State → State
  | [], s      => s
  | r :: rs, s => serveAll rs (serve r s).1

/-! ## Tables of the spec, in closed form -/

/-- The pieces an operation may write, with its fault aside (10_state.md R22, R24, R25, R30, R35, R37, R40–R42; 20_memory.md
R61). -/
def writes : Instr → List Component
  | .cls         => [.pc, .disp, .redraw]
  | .ret         => [.pc, .sp]
  | .jp _        => [.pc]
  | .call _      => [.pc, .stack, .sp]
  | .seByte _ _  => [.pc]
  | .sneByte _ _ => [.pc]
  | .seReg _ _   => [.pc]
  | .ldByte _ _  => [.pc, .regs]
  | .addByte _ _ => [.pc, .regs]
  | .ldReg _ _   => [.pc, .regs]
  | .orReg _ _   => [.pc, .regs]
  | .andReg _ _  => [.pc, .regs]
  | .xorReg _ _  => [.pc, .regs]
  | .addReg _ _  => [.pc, .regs]
  | .subReg _ _  => [.pc, .regs]
  | .shr _       => [.pc, .regs]
  | .subnReg _ _ => [.pc, .regs]
  | .shl _       => [.pc, .regs]
  | .sneReg _ _  => [.pc]
  | .ldI _       => [.pc, .idx]
  | .jpV0 _      => [.pc]
  | .rnd _ _     => [.pc, .regs, .draws]
  | .drw _ _ _   => [.pc, .regs, .disp, .redraw]
  | .skp _       => [.pc]
  | .sknp _      => [.pc]
  | .ldVxDt _    => [.pc, .regs]
  | .ldVxK _     => [.pc, .regs]
  | .ldDtVx _    => [.pc, .dt]
  | .ldStVx _    => [.pc, .st]
  | .addI _      => [.pc, .regs, .idx]
  | .ldF _       => [.pc, .idx]
  | .ldB _       => [.pc, .mem]
  | .stRegs _    => [.pc, .mem]
  | .ldRegs _    => [.pc, .regs]

/-- Whether an operation may write a register: its destination, VF for the flag writers of R22, and V0..VX for
LD Vx,[I]. -/
def writesReg (i : Instr) (r : Reg) : Bool :=
  match i with
  | .ldByte x _  => r == x
  | .addByte x _ => r == x
  | .ldReg x _   => r == x
  | .orReg x _   => r == x
  | .andReg x _  => r == x
  | .xorReg x _  => r == x
  | .rnd x _     => r == x
  | .ldVxDt x    => r == x
  | .ldVxK x     => r == x
  | .addReg x _  => r == x || r == vf
  | .subReg x _  => r == x || r == vf
  | .shr x       => r == x || r == vf
  | .subnReg x _ => r == x || r == vf
  | .shl x       => r == x || r == vf
  | .drw _ _ _   => r == vf
  | .addI _      => r == vf
  | .ldRegs x    => decide (r ≤ x)
  | .cls => false
  | .ret => false
  | .jp _ => false
  | .call _ => false
  | .seByte _ _ => false
  | .sneByte _ _ => false
  | .seReg _ _ => false
  | .sneReg _ _ => false
  | .ldI _ => false
  | .jpV0 _ => false
  | .skp _ => false
  | .sknp _ => false
  | .ldDtVx _ => false
  | .ldStVx _ => false
  | .ldF _ => false
  | .ldB _ => false
  | .stRegs _ => false

/-- The fault of reading `n` bytes from `a`, if any: the first address above 0xFFF. -/
def readFault (a n : Nat) : Option (FaultKind × Nat) :=
  if n ≠ 0 ∧ a + n > 0x1000 then some (.memoryBounds, max a 0x1000) else none

/-- The fault of writing `n` bytes from `a`, if any, for `n` from 1 to 16. -/
def writeFault (a n : Nat) : Option (FaultKind × Nat) :=
  if a ≤ 0x04F then some (.fontWrite, a) else readFault a n

/-- The table of 60_exceptions.md R261: the fault an operation raises, and the value it records. -/
def faultTable (i : Instr) (s : State) : Option (FaultKind × Nat) :=
  match i with
  | .call _    => if s.sp.val = 16 then some (.stackOverflow, 16) else none
  | .ret       => if s.sp.val = 0 then some (.stackUnderflow, 0) else none
  | .drw _ _ n => readFault s.idx.toNat n.toNat
  | .ldB _     => writeFault s.idx.toNat 3
  | .stRegs x  => writeFault s.idx.toNat (x.val + 1)
  | .ldRegs x  => readFault s.idx.toNat (x.val + 1)
  | .skp x     => if (s.reg x).toNat > 15 then some (.keyIndex, (s.reg x).toNat) else none
  | .sknp x    => if (s.reg x).toNat > 15 then some (.keyIndex, (s.reg x).toNat) else none
  | .cls => none
  | .jp _ => none
  | .seByte _ _ => none
  | .sneByte _ _ => none
  | .seReg _ _ => none
  | .ldByte _ _ => none
  | .addByte _ _ => none
  | .ldReg _ _ => none
  | .orReg _ _ => none
  | .andReg _ _ => none
  | .xorReg _ _ => none
  | .addReg _ _ => none
  | .subReg _ _ => none
  | .shr _ => none
  | .subnReg _ _ => none
  | .shl _ => none
  | .sneReg _ _ => none
  | .ldI _ => none
  | .jpV0 _ => none
  | .rnd _ _ => none
  | .ldVxDt _ => none
  | .ldVxK _ => none
  | .ldDtVx _ => none
  | .ldStVx _ => none
  | .addI _ => none
  | .ldF _ => none

/-- The skip of R122: pc + 4 if the condition holds, else pc + 2. -/
def skipPc (s : State) (c : Prop) [Decidable c] : Word := if c then s.pc + 4 else s.pc + 2

/-- The slot RET pops: `stack[sp − 1]` once sp is at least 1. -/
def topOfStack (s : State) : Word := s.stack[(s.sp.val - 1) % 16]'(by omega)

/-- The table of 40_cycle.md R122: the pc an operation that does not fault writes. -/
def pcTable (i : Instr) (s : State) : Word :=
  match i with
  | .jp addr      => addr
  | .call addr    => addr
  | .ret          => topOfStack s + 2
  | .jpV0 addr    => addr + (s.reg 0).setWidth 16
  | .seByte x nn  => skipPc s (s.reg x = nn)
  | .sneByte x nn => skipPc s (s.reg x ≠ nn)
  | .seReg x y    => skipPc s (s.reg x = s.reg y)
  | .sneReg x y   => skipPc s (s.reg x ≠ s.reg y)
  | .skp x        => skipPc s (∃ k : Reg, k.val = (s.reg x).toNat ∧ s.keys[k] = true)
  | .sknp x       => skipPc s (∃ k : Reg, k.val = (s.reg x).toNat ∧ s.keys[k] = false)
  | .ldVxK _      => if ∃ k : Reg, s.keys[k] = true then s.pc + 2 else s.pc
  | .cls => s.pc + 2
  | .ldByte _ _ => s.pc + 2
  | .addByte _ _ => s.pc + 2
  | .ldReg _ _ => s.pc + 2
  | .orReg _ _ => s.pc + 2
  | .andReg _ _ => s.pc + 2
  | .xorReg _ _ => s.pc + 2
  | .addReg _ _ => s.pc + 2
  | .subReg _ _ => s.pc + 2
  | .shr _ => s.pc + 2
  | .subnReg _ _ => s.pc + 2
  | .shl _ => s.pc + 2
  | .ldI _ => s.pc + 2
  | .rnd _ _ => s.pc + 2
  | .drw _ _ _ => s.pc + 2
  | .ldVxDt _ => s.pc + 2
  | .ldDtVx _ => s.pc + 2
  | .ldStVx _ => s.pc + 2
  | .addI _ => s.pc + 2
  | .ldF _ => s.pc + 2
  | .ldB _ => s.pc + 2
  | .stRegs _ => s.pc + 2
  | .ldRegs _ => s.pc + 2

/-- Whether a sprite of `n` rows placed at (x0, y0) has a set bit over pixel (px, py): the pixel lies `c` columns and `r`
lines on from the start, wrapping, and bit `7 - c` of row `r` is set (43_display.md R201, R202, R206). -/
def spriteCovers (x0 y0 n : Nat) (row : Nat → Byte) (px py : Nat) : Bool :=
  let c := (px + (64 - x0 % 64)) % 64
  let r := (py + (32 - y0 % 32)) % 32
  decide (c < 8) && decide (r < n) && (row r).getLsbD (7 - c)

/-- A flag-writing register operation of 42_alu.md R178–R182: its flag and its result as functions of the old operands,
in plain arithmetic. -/
structure FlagInstr where
  instr : Reg → Reg → Instr
  flag  : Nat → Nat → Nat
  res   : Nat → Nat → Nat

/-- ADD, SUB, SHR, SUBN and SHL. -/
def flagInstrs : List FlagInstr := [
  ⟨.addReg, fun a b => if a + b > 255 then 1 else 0, fun a b => (a + b) % 256⟩,
  ⟨.subReg, fun a b => if a > b then 1 else 0, fun a b => (a + 256 - b) % 256⟩,
  ⟨fun x _ => .shr x, fun a _ => a % 2, fun a _ => a / 2⟩,
  ⟨.subnReg, fun a b => if b > a then 1 else 0, fun a b => (b + 256 - a) % 256⟩,
  ⟨fun x _ => .shl x, fun a _ => a / 128, fun a _ => 2 * a % 256⟩]

/-! ## The opcode map (30_encoding.md R97), with the fields taken by arithmetic -/

/-- A row: match and mask under each `SECONDARY_DECODE`, and the operation of a word that matches. -/
structure OpRow where
  pat       : Word
  mask      : Word
  exactPat  : Word
  exactMask : Word
  build     : Word → Instr

/-- A word matches a row: `w & mask == match`. -/
def OpRow.matches (row : OpRow) (m : SecondaryDecode) (w : Word) : Bool :=
  match m with
  | .nibbleLow => decide (w &&& row.mask = row.pat)
  | .exact     => decide (w &&& row.exactMask = row.exactPat)

/-- X of a word, by arithmetic. -/
def numX (w : Word) : Reg := Fin.ofNat 16 (w.toNat / 256)
/-- Y of a word, by arithmetic. -/
def numY (w : Word) : Reg := Fin.ofNat 16 (w.toNat / 16)
/-- NN of a word, by arithmetic. -/
def numNN (w : Word) : Byte := BitVec.ofNat 8 (w.toNat % 256)
/-- NNN of a word, by arithmetic. -/
def numNNN (w : Word) : Word := BitVec.ofNat 16 (w.toNat % 4096)
/-- N of a word, by arithmetic. -/
def numN (w : Word) : BitVec 4 := BitVec.ofNat 4 (w.toNat % 16)

/-- A row whose match and mask are the same under both settings. -/
def plainRow (pat mask : Word) (build : Word → Instr) : OpRow := ⟨pat, mask, pat, mask, build⟩

/-- The 34 rows of R97, in order. -/
def opcodeMap : List OpRow := [
  ⟨0x0000, 0xF00F, 0x00E0, 0xFFFF, fun _ => .cls⟩,
  ⟨0x000E, 0xF00F, 0x00EE, 0xFFFF, fun _ => .ret⟩,
  plainRow 0x1000 0xF000 fun w => .jp (numNNN w),
  plainRow 0x2000 0xF000 fun w => .call (numNNN w),
  plainRow 0x3000 0xF000 fun w => .seByte (numX w) (numNN w),
  plainRow 0x4000 0xF000 fun w => .sneByte (numX w) (numNN w),
  plainRow 0x5000 0xF000 fun w => .seReg (numX w) (numY w),
  plainRow 0x6000 0xF000 fun w => .ldByte (numX w) (numNN w),
  plainRow 0x7000 0xF000 fun w => .addByte (numX w) (numNN w),
  plainRow 0x8000 0xF00F fun w => .ldReg (numX w) (numY w),
  plainRow 0x8001 0xF00F fun w => .orReg (numX w) (numY w),
  plainRow 0x8002 0xF00F fun w => .andReg (numX w) (numY w),
  plainRow 0x8003 0xF00F fun w => .xorReg (numX w) (numY w),
  plainRow 0x8004 0xF00F fun w => .addReg (numX w) (numY w),
  plainRow 0x8005 0xF00F fun w => .subReg (numX w) (numY w),
  plainRow 0x8006 0xF00F fun w => .shr (numX w),
  plainRow 0x8007 0xF00F fun w => .subnReg (numX w) (numY w),
  plainRow 0x800E 0xF00F fun w => .shl (numX w),
  plainRow 0x9000 0xF000 fun w => .sneReg (numX w) (numY w),
  plainRow 0xA000 0xF000 fun w => .ldI (numNNN w),
  plainRow 0xB000 0xF000 fun w => .jpV0 (numNNN w),
  plainRow 0xC000 0xF000 fun w => .rnd (numX w) (numNN w),
  plainRow 0xD000 0xF000 fun w => .drw (numX w) (numY w) (numN w),
  ⟨0xE00E, 0xF00F, 0xE09E, 0xF0FF, fun w => .skp (numX w)⟩,
  ⟨0xE001, 0xF00F, 0xE0A1, 0xF0FF, fun w => .sknp (numX w)⟩,
  plainRow 0xF007 0xF0FF fun w => .ldVxDt (numX w),
  plainRow 0xF00A 0xF0FF fun w => .ldVxK (numX w),
  plainRow 0xF015 0xF0FF fun w => .ldDtVx (numX w),
  plainRow 0xF018 0xF0FF fun w => .ldStVx (numX w),
  plainRow 0xF01E 0xF0FF fun w => .addI (numX w),
  plainRow 0xF029 0xF0FF fun w => .ldF (numX w),
  plainRow 0xF033 0xF0FF fun w => .ldB (numX w),
  plainRow 0xF055 0xF0FF fun w => .stRegs (numX w),
  plainRow 0xF065 0xF0FF fun w => .ldRegs (numX w)]

end Sys2Proof.Machine
end

