-- ==== Sys2Proof/Certificates/Slice0/Obligations.lean ====
section
/-! DEFINITION. The statements for the provers. Where a clause follows a decision the spec marks as its own (`Dn` of
spec/92_eei_decisions.md) or a log entry of the model, its docstring says so. A statement holds for every value of the
parameters of spec/00_scope.md R8, which stand in the state, and for every sequence of random draws. -/

open Sys2Proof Sys2Proof.Machine

/-! ## Encoding -/

/-- Decode and encode agree, under both settings of SECONDARY_DECODE, for words and for bytes (30_encoding.md R91, R92,
R97; the patterns are the spec's decision D20). -/
def Obligations.DecodeOfEncode : Prop :=
  ∀ (m : SecondaryDecode) (i : Instr) (rest : List Byte), WellFormed i →
    decodeWord m (encode i) = .ok i ∧ decode m (encodeBytes i ++ rest) = .ok (i, rest)

/-- The decoder is the opcode map: under either setting a word decodes to an operation exactly when some row of R97
matches it, and then to that row's operation with the fields taken by arithmetic (R91, R95, R97; D1, D20). -/
def Obligations.DecoderIsTheOpcodeMap : Prop :=
  ∀ (m : SecondaryDecode) (w : Word) (i : Instr),
    decodeWord m w = .ok i ↔ ∃ row ∈ opcodeMap, row.matches m w = true ∧ i = row.build w

/-- The opcode map is unambiguous: under either setting no word matches two rows (30_encoding.md R99, which the spec marks
derived). -/
def Obligations.OpcodeMapUnambiguous : Prop :=
  ∀ (m : SecondaryDecode) (w : Word), (opcodeMap.filter fun row => row.matches m w).length ≤ 1

/-- Which words are undecoded (30_encoding.md R100, without its counts; D1, D20). -/
def Obligations.UndecodedWords : Prop :=
  ∀ w : Word,
    let fam := w.toNat / 4096
    let low := w.toNat % 16
    let byte := w.toNat % 256
    let undecF := fam = 0xF ∧ byte ∉ [0x07, 0x0A, 0x15, 0x18, 0x1E, 0x29, 0x33, 0x55, 0x65]
    let undec8 := fam = 0x8 ∧ low ∈ [0x8, 0x9, 0xA, 0xB, 0xC, 0xD, 0xF]
    ((∃ e, decodeWord .nibbleLow w = .error e) ↔
      (fam = 0x0 ∧ low ∉ [0x0, 0xE]) ∨ undec8 ∨ (fam = 0xE ∧ low ∉ [0xE, 0x1]) ∨ undecF) ∧
    ((∃ e, decodeWord .exact w = .error e) ↔
      (fam = 0x0 ∧ w.toNat ∉ [0x00E0, 0x00EE]) ∨ undec8 ∨ (fam = 0xE ∧ byte ∉ [0x9E, 0xA1]) ∨ undecF)

/-- Every instruction is two bytes, the high byte first, and a decoder consumes exactly those two (30_encoding.md R90). -/
def Obligations.DecodeConsumesTwoBytes : Prop :=
  (∀ (m : SecondaryDecode) (hi lo : Byte) (rest : List Byte) (i : Instr),
    decodeWord m (BitVec.ofNat 16 (hi.toNat * 256 + lo.toNat)) = .ok i → decode m (hi :: lo :: rest) = .ok (i, rest)) ∧
  (∀ (m : SecondaryDecode) (bytes rest : List Byte) (i : Instr), decode m bytes = .ok (i, rest) →
    ∃ hi lo, bytes = hi :: lo :: rest ∧ decodeWord m (BitVec.ofNat 16 (hi.toNat * 256 + lo.toNat)) = .ok i) ∧
  ∀ i : Instr, (encodeBytes i).length = 2

/-- What is decoded is well-formed: no operand leaves its field (30_encoding.md R92). -/
def Obligations.DecodedIsWellFormed : Prop :=
  ∀ (m : SecondaryDecode) (w : Word) (i : Instr), decodeWord m w = .ok i → WellFormed i

/-- A few words written out from the spec's encodings and examples (30_encoding.md R97). -/
def Obligations.ExampleWordsDecode : Prop :=
  decodeWord .nibbleLow 0x6005 = .ok (.ldByte 0 0x05) ∧ decodeWord .nibbleLow 0x7003 = .ok (.addByte 0 0x03) ∧
  decodeWord .nibbleLow 0xA230 = .ok (.ldI 0x230) ∧ decodeWord .nibbleLow 0xF033 = .ok (.ldB 0) ∧
  decodeWord .nibbleLow 0x8124 = .ok (.addReg 1 2) ∧ decodeWord .nibbleLow 0xD121 = .ok (.drw 1 2 1) ∧
  decodeWord .nibbleLow 0x012E = .ok .ret ∧ decodeWord .exact 0x012E = .error (.undecoded0 0x012E)

/-! ## The cycle -/

/-- A step runs the decoded instruction: when the bytes at pc decode, `step` is `exec` of that instruction with the cycle's
end around it, the timer tick unless a fault was raised (40_cycle.md R120; 20_memory.md R70). The pc is moved by the
instruction alone. -/
def Obligations.StepRunsTheDecodedInstruction : Prop :=
  ∀ (s : State) (i : Instr), s.fault = none → s.pc.toNat ≤ 0xFFE →
    decode s.params.secondaryDecode [s.byteAt s.pc.toNat, s.byteAt (s.pc.toNat + 1)] = .ok (i, []) →
    WellFormed i ∧ step s = endCycle (exec i s) ∧
    (∀ t, exec i s = .next t → t.fault = none → step s = .next (tick t)) ∧
    (∀ t, exec i s = .next t → t.fault ≠ none → step s = .next t)

/-- The timer tick and the audio trigger (40_cycle.md R126). -/
def Obligations.TickCountsDown : Prop :=
  ∀ s : State, ((tick s).audio = true ↔ s.st.toNat = 1) ∧
    (tick s).dt.toNat = (if s.dt.toNat > 0 then s.dt.toNat - 1 else 0) ∧
    (tick s).st.toNat = (if s.st.toNat > 0 then s.st.toNat - 1 else 0) ∧
    FrameBut [.dt, .st, .audio] s (tick s)

/-- The tick runs in every cycle that does not fault: after a decoded operation, after an undecoded word, and while
LD Vx,K waits (40_cycle.md R125). -/
def Obligations.TickRunsInEveryCycle : Prop :=
  (∀ s t : State, step s = .next t → t.fault = none →
    ∃ u, t = tick u ∧
      ((∃ w i, fetch s = .ok w ∧ decodeWord s.params.secondaryDecode w = .ok i ∧ exec i s = .next u) ∨
       (∃ w e, fetch s = .ok w ∧ decodeWord s.params.secondaryDecode w = .error e ∧ u = undecoded s))) ∧
  (∀ (s : State) (w : Word) (x : Reg), s.fault = none → fetch s = .ok w →
    decodeWord s.params.secondaryDecode w = .ok (.ldVxK x) → (∀ k : Reg, s.keys[k] = false) → step s = .next (tick s))

/-- The audio trigger is set in every cycle that does not fault, to true exactly when ST enters the tick as 1; an LD ST,Vx
of 0 gives no trigger and one of 1 gives it in the same cycle (40_cycle.md R127, R128; the last two the spec marks
derived). -/
def Obligations.AudioTrigger : Prop :=
  ∀ (s t : State) (w : Word), step s = .next t → t.fault = none → fetch s = .ok w →
    (∀ x : Reg, decodeWord s.params.secondaryDecode w = .ok (.ldStVx x) →
      (t.audio = true ↔ (s.reg x).toNat = 1) ∧ t.st.toNat = (s.reg x).toNat - 1) ∧
    ((∀ x : Reg, decodeWord s.params.secondaryDecode w ≠ .ok (.ldStVx x)) →
      (t.audio = true ↔ s.st.toNat = 1) ∧ t.st.toNat = s.st.toNat - 1)

/-- The delay timer over a cycle: decremented after the operation, so LD DT,Vx leaves max(Vx − 1, 0) and LD Vx,DT gives the
value from before the tick (40_cycle.md R128, which the spec marks derived). -/
def Obligations.DelayTimerOverACycle : Prop :=
  ∀ (s t : State) (w : Word), step s = .next t → t.fault = none → fetch s = .ok w →
    (∀ x : Reg, decodeWord s.params.secondaryDecode w = .ok (.ldDtVx x) → t.dt.toNat = (s.reg x).toNat - 1) ∧
    (∀ x : Reg, decodeWord s.params.secondaryDecode w = .ok (.ldVxDt x) → t.reg x = s.dt ∧ t.dt.toNat = s.dt.toNat - 1) ∧
    ((∀ x : Reg, decodeWord s.params.secondaryDecode w ≠ .ok (.ldDtVx x)) → t.dt.toNat = s.dt.toNat - 1)

/-- Every operation writes the pc the table gives it, an undecoded word moves pc by UNDECODED_PC_STEP, and the cycle adds
nothing to either (40_cycle.md R122). -/
def Obligations.PcTable : Prop :=
  (∀ (i : Instr) (s t : State), s.fault = none → exec i s = .next t → t.fault = none → t.pc = pcTable i s) ∧
  ∀ (s t : State) (w : Word), step s = .next t → t.fault = none → fetch s = .ok w →
    (∀ i, decodeWord s.params.secondaryDecode w = .ok i → t.pc = pcTable i s) ∧
    (∀ e, decodeWord s.params.secondaryDecode w = .error e →
      t.pc = s.pc + (match s.params.undecodedStep with | .zero => 0 | .two => 2))

/-- A fetch above 0xFFE faults and nothing else happens in the cycle (40_cycle.md R121: the spec's decisions D5, D15). -/
def Obligations.FetchFault : Prop :=
  ∀ s : State, s.fault = none → s.pc.toNat > 0xFFE →
    step s = .next { s with
      fault := some { kind := .memoryBounds, pc := s.pc, addr := if s.pc.toNat = 0xFFF then 0x1000 else s.pc.toNat } }

/-- An undecoded word is no fault: pc moves by 0 or 2, the timers tick, and nothing else changes (40_cycle.md R124; the
step's two values are the spec's decision D2). -/
def Obligations.UndecodedWordIsNoFault : Prop :=
  ∀ (s : State) (w : Word) (e : DecodeError), s.fault = none → fetch s = .ok w →
    decodeWord s.params.secondaryDecode w = .error e →
    ∃ t, step s = .next t ∧ t.fault = none ∧
      t.pc = (match s.params.undecodedStep with | .zero => s.pc | .two => s.pc + 2) ∧
      t.dt.toNat = s.dt.toNat - 1 ∧ t.st.toNat = s.st.toNat - 1 ∧ (t.audio = true ↔ s.st.toNat = 1) ∧
      FrameBut [.pc, .dt, .st, .audio] s t

/-- The core never stops by itself: every cycle of a core that is not faulted has a next state, and no operation is
refused (40_cycle.md R132; 60_exceptions.md R269, for the absence of a halt). That a cycle or an operation which raises a
fault answers a next state, with the record written, is the spec's decision D15 in the form the model chose for it
(log 3, DESIGN CHOICE). -/
def Obligations.EveryCycleHasANextState : Prop :=
  (∀ s : State, s.fault = none → ∃ t, step s = .next t) ∧ ∀ (i : Instr) (s : State), ∃ t, exec i s = .next t

/-! ## Faults -/

/-- The fault table: an operation raises a fault exactly when R261 says so, recording its kind, its own pc and the table's
value, and changes nothing else; otherwise it completes (60_exceptions.md R261–R264: the spec's decisions D3–D6, D10, D15,
D16). -/
def Obligations.FaultTable : Prop :=
  ∀ (i : Instr) (s : State),
    (∀ k a, faultTable i s = some (k, a) →
      exec i s = .next { s with fault := some { kind := k, pc := s.pc, addr := a } }) ∧
    (s.fault = none → faultTable i s = none → ∃ t, exec i s = .next t ∧ t.fault = none)

/-- Faults are precise: a cycle that ends faulted leaves the state before it with only the record set, and the record
names the executing word (60_exceptions.md R262, R263; 40_cycle.md R130; the spec's decision D15). -/
def Obligations.FaultsArePrecise : Prop :=
  ∀ s t : State, step s = .next t → t.fault ≠ none →
    ∃ k a, t = { s with fault := some { kind := k, pc := s.pc, addr := a } }

/-- A faulted core has no further cycle: `step` has no successor, the host's step transaction changes nothing, and a load
clears the fault (60_exceptions.md R262, R276; D15). -/
def Obligations.FaultedCoreIsTerminal : Prop :=
  ∀ (s : State) (r : FaultRecord), s.fault = some r →
    step s = .fault (.coreFaulted r) ∧ serve .step s = (s, .nothing) ∧
    ∀ bytes, (serve (.load bytes) s).1.fault = none

/-! ## The state: who writes and who reads -/

/-- Every operation writes only the pieces of the state the spec names for it, and only the registers it names
(10_state.md R22, R24, R25, R30, R35, R37, R40–R42; 20_memory.md R61). -/
def Obligations.OnlyNamedStateIsWritten : Prop :=
  ∀ (i : Instr) (s t : State), exec i s = .next t →
    FrameBut (.fault :: writes i) s t ∧ ∀ r, writesReg i r = false → t.reg r = s.reg r

/-- The sound timer is written by LD ST,Vx alone and read by no instruction; DT is written by LD DT,Vx alone and read by
LD Vx,DT; besides them only the tick changes a timer, so neither an undecoded word, nor a faulting cycle, nor a host
transaction other than a step or a load does (10_state.md R35). That a faulting cycle runs no tick is 40_cycle.md R130, the
spec's decision D15, and that such a cycle is a next state is log 3. -/
def Obligations.TimerReadersAndWriters : Prop :=
  (∀ (i : Instr) (s t : State) (b : Byte), exec i s = .next t →
    ((∀ x, i ≠ .ldStVx x) → t.st = s.st ∧ exec i (s.setSt b) = .next (t.setSt b)) ∧
    ((∀ x, i ≠ .ldDtVx x) → t.dt = s.dt)) ∧
  (∀ (s : State) (x : Reg) (b : Byte),
    (∃ t, exec (.ldStVx x) s = .next t ∧ t.st = s.reg x ∧ exec (.ldStVx x) (s.setSt b) = .next t) ∧
    (∃ t, exec (.ldDtVx x) s = .next t ∧ t.dt = s.reg x) ∧ (∃ t, exec (.ldVxDt x) s = .next t ∧ t.reg x = s.dt)) ∧
  (∀ s : State, (undecoded s).st = s.st ∧ (undecoded s).dt = s.dt) ∧
  (∀ s t : State, step s = .next t → t.fault ≠ none → t.st = s.st ∧ t.dt = s.dt) ∧
  ∀ (s : State) (r : Request), r ≠ .step → (∀ bytes, r ≠ .load bytes) →
    (serve r s).1.st = s.st ∧ (serve r s).1.dt = s.dt

/-- The display is not in memory: no byte of memory depends on it, a memory write leaves it, and no instruction but CLS and
DRW reads it (10_state.md R39). -/
def Obligations.DisplayIsApart : Prop :=
  (∀ (s : State) (d : Display) (a : Nat) (b : Byte),
    State.byteAt { s with disp := d } a = s.byteAt a ∧ (s.setByte a b).disp = s.disp) ∧
  ∀ (i : Instr) (s t : State) (d : Display), i ≠ .cls → (∀ x y n, i ≠ .drw x y n) → exec i s = .next t →
    t.disp = s.disp ∧ exec i { s with disp := d } = .next { t with disp := d }

/-- The call stack is apart: no instruction but CALL and RET reads or writes `stack` or `sp` (10_state.md R30). -/
def Obligations.CallStackIsApart : Prop :=
  ∀ (i : Instr) (s t : State) (k : Vector Word 16) (p : Fin 17), i ≠ .ret → (∀ a, i ≠ .call a) → exec i s = .next t →
    t.stack = s.stack ∧ t.sp = s.sp ∧ exec i { s with stack := k, sp := p } = .next { t with stack := k, sp := p }

/-- The keys SKP, SKNP and LD Vx,K see in a cycle are those the host last wrote: `setKeys` replaces the vector and nothing
else, no cycle and no transaction but a load writes it, and the three operations read what was set before their cycle
(44_input_timers.md R226). -/
def Obligations.KeysAreTheHosts : Prop :=
  (∀ (s : State) (keys : Vector Bool 16), (serve (.setKeys keys) s).1 = { s with keys := keys }) ∧
  (∀ (s : State) (r : Request), (∀ keys, r ≠ .setKeys keys) → (∀ bytes, r ≠ .load bytes) →
    (serve r s).1.keys = s.keys) ∧
  ∀ (s : State) (keys : Vector Bool 16) (w : Word) (x k : Reg), s.fault = none → fetch s = .ok w →
    let t := serveAll [.setKeys keys, .step] s
    (decodeWord s.params.secondaryDecode w = .ok (.skp x) → (s.reg x).toNat = k.val →
      t.pc = s.pc + (if keys[k] = true then 4 else 2)) ∧
    (decodeWord s.params.secondaryDecode w = .ok (.sknp x) → (s.reg x).toNat = k.val →
      t.pc = s.pc + (if keys[k] = true then 2 else 4)) ∧
    (decodeWord s.params.secondaryDecode w = .ok (.ldVxK x) → keys[k] = true → (∀ j : Reg, k < j → keys[j] = false) →
      (t.reg x).toNat = k.val ∧ t.pc = s.pc + 2)

/-- The core never clears the redraw flag, and CLS and DRW alone set it (10_state.md R40, 70_reset_and_hazards.md R301; the
spec's decision D12). -/
def Obligations.RedrawIsSticky : Prop :=
  (∀ s t : State, step s = .next t → s.redraw = true → t.redraw = true) ∧
  (∀ (i : Instr) (s t : State), exec i s = .next t → s.redraw = false → t.redraw = true →
    i = .cls ∨ ∃ x y n, i = .drw x y n)

/-! ## Invariants -/

/-- Every cycle keeps memory in its canonical form: the model's own form of 20_memory.md R60. -/
def Obligations.StepKeepsMemoryCanonical : Prop :=
  ∀ s t : State, MemCanonical s → step s = .next t → MemCanonical t

/-- Every cycle keeps the font: no program write reaches 0x000–0x04F (20_memory.md R63; the fault is the spec's decision
D6). -/
def Obligations.StepKeepsTheFont : Prop :=
  ∀ s t : State, FontIntact s → step s = .next t → FontIntact t

/-- Every cycle keeps pc at or below 0x10FE and every return address at or below 0xFFE, so no pc arithmetic reaches its
reduction modulo 65536 (10_state.md R29, which the spec marks derived). -/
def Obligations.StepKeepsPcBound : Prop :=
  ∀ s t : State, PcBound s → step s = .next t → PcBound t

/-- The invariants hold at reset, under any parameters (10_state.md R47). -/
def Obligations.ResetMeetsTheInvariants : Prop :=
  ∀ (p : Params) (n : Nat), MachineInv (State.resetWith p n)

/-- Whatever the host does, in any order and with any program loaded, the invariants hold: the font is intact, memory is
canonical and pc is bounded (20_memory.md R63, 10_state.md R29, 60_exceptions.md R273; the spec's decisions D6, D13). -/
def Obligations.EveryHostRunKeepsTheInvariants : Prop :=
  ∀ (p : Params) (n : Nat) (rs : List Request), MachineInv (serveAll rs (State.resetWith p n))

/-- Canonical memories that read alike are the same data (the model's memory form, log 7). -/
def Obligations.CanonicalMemoryIsUnique : Prop :=
  ∀ (f : Font) (m k : Memory), Memory.wf f m → Memory.wf f k → (∀ a, readMem f m a = readMem f k a) → m = k

/-! ## Reset, load and the host -/

/-- Reset leaves every component at the table's value, under any parameters (10_state.md R47; `fault` none is the spec's
decision D15), and the model's own reset state is that with the spec's defaults (00_scope.md R8). -/
def Obligations.ResetHoldsTheTable : Prop :=
  (∀ (p : Params) (n : Nat),
    let r := State.resetWith p n
    (∀ a, (h : a < 80) → r.byteAt a = p.font[a]) ∧ (∀ a, 80 ≤ a → r.byteAt a = 0) ∧ (∀ x, r.reg x = 0) ∧ r.idx = 0 ∧
    r.pc = 0x200 ∧ (∀ k : Fin 16, r.stack[k] = 0) ∧ r.sp = 0 ∧ r.dt = 0 ∧ r.st = 0 ∧
    (∀ c, c < 2048 → r.disp.getLsbD c = false) ∧ r.redraw = false ∧ (∀ k : Reg, r.keys[k] = false) ∧ r.audio = false ∧
    r.fault = none ∧ r.params = p) ∧
  State.reset = State.resetWith Config.defaults 0 ∧
  Config.defaults.secondaryDecode = .nibbleLow ∧ Config.defaults.undecodedStep = .zero ∧
  Config.defaults.vfAlias = .sequential

/-- A load resets everything and copies the image to 0x200; an image over 3584 bytes leaves the clean reset and fails
(70_reset_and_hazards.md R291; C1). The reset state keeps the model's own params and draws (logs 1, 2). -/
def Obligations.LoadReplacesTheState : Prop :=
  ∀ (s : State) (bytes : List Byte),
    (bytes.length ≤ 3584 → ∃ t, serve (.load bytes) s = (t, .loadOk true) ∧ t.pc = 0x200 ∧
      (∀ k, (h : k < bytes.length) → t.byteAt (0x200 + k) = bytes[k]) ∧
      BytesBut 0x200 bytes.length (resetState s) t ∧ FrameBut [.mem] (resetState s) t) ∧
    (bytes.length > 3584 → serve (.load bytes) s = (resetState s, .loadOk false))

/-- The host's other transactions: reads change nothing and give what they name, `clear redraw` clears that flag alone
(60_exceptions.md R274, R277, R278; D12, D15 for redraw and fault). -/
def Obligations.HostTransactions : Prop :=
  ∀ s : State, serve .readPixels s = (s, .pixels s.disp) ∧ serve .readRedraw s = (s, .redraw s.redraw) ∧
    serve .readAudio s = (s, .audio s.audio) ∧ serve .readFault s = (s, .fault s.fault) ∧
    serve .clearRedraw s = ({ s with redraw := false }, .nothing)

/-- A word placed by `withFetchWord` is the word the next fetch reads; where pc has room for it, nothing but those two
bytes and a pending fault is touched (the model's own, log 6). -/
def Obligations.PlacedWordIsFetched : Prop :=
  ∀ (s : State) (w : Nat), w < 65536 →
    let t := s.withFetchWord 16 w
    t.fault = none ∧ fetch t = .ok (BitVec.ofNat 16 w) ∧
    (s.pc.toNat ≤ 0xFFE → BytesBut s.pc.toNat 2 s t ∧ FrameBut [.mem, .fault] s t)

/-! ## Control transfer -/

/-- JP addr and JP V0,addr (41_control_flow.md R141, R147; that the sum is taken modulo 65536 is the spec's decision D28). -/
def Obligations.Jumps : Prop :=
  ∀ (s : State) (addr : Word),
    (∃ t, exec (.jp addr) s = .next t ∧ t.pc = addr ∧ FrameBut [.pc] s t) ∧
    (∃ t, exec (.jpV0 addr) s = .next t ∧ t.pc.toNat = (addr.toNat + (s.reg 0).toNat) % 65536 ∧ FrameBut [.pc] s t)

/-- CALL addr (41_control_flow.md R142): with room on the stack it pushes its own address; slots other than the one written
are unchanged. -/
def Obligations.CallPushesItsAddress : Prop :=
  ∀ (s : State) (addr : Word) (k : Fin 16), s.sp.val = k.val →
    ∃ t, exec (.call addr) s = .next t ∧ t.stack[k] = s.pc ∧ (∀ j : Fin 16, j ≠ k → t.stack[j] = s.stack[j]) ∧
      t.sp.val = s.sp.val + 1 ∧ t.pc = addr ∧ FrameBut [.pc, .stack, .sp] s t

/-- RET (41_control_flow.md R140): with an entry on the stack it goes to the word after the CALL that pushed it, and leaves
the slot as it was (10_state.md R32: the spec's decision D24). -/
def Obligations.RetPopsAndAddsTwo : Prop :=
  ∀ (s : State) (k : Fin 16), s.sp.val = k.val + 1 →
    ∃ t, exec .ret s = .next t ∧ t.sp.val = k.val ∧ t.pc = s.stack[k] + 2 ∧ FrameBut [.pc, .sp] s t

/-- CALL then RET goes to the instruction after the CALL and leaves the stack pointer as before it, whatever the subroutine
did to the rest of the state (95_test_vectors.md S9; 41_control_flow.md R140, R142). -/
def Obligations.CallThenRet : Prop :=
  ∀ (s t u : State) (addr : Word), s.fault = none → exec (.call addr) s = .next t → t.fault = none →
    u.stack = t.stack → u.sp = t.sp →
    ∃ v, exec .ret u = .next v ∧ v.pc = s.pc + 2 ∧ v.sp = s.sp ∧ FrameBut [.pc, .sp] u v

/-- SE and SNE with an immediate and with two registers: pc + 4 if the condition holds, else pc + 2
(41_control_flow.md R143–R146). -/
def Obligations.SkipsOnValues : Prop :=
  ∀ (s : State) (x y : Reg) (nn : Byte),
    (∃ t, exec (.seByte x nn) s = .next t ∧ t.pc = s.pc + (if s.reg x = nn then 4 else 2) ∧ FrameBut [.pc] s t) ∧
    (∃ t, exec (.sneByte x nn) s = .next t ∧ t.pc = s.pc + (if s.reg x = nn then 2 else 4) ∧ FrameBut [.pc] s t) ∧
    (∃ t, exec (.seReg x y) s = .next t ∧ t.pc = s.pc + (if s.reg x = s.reg y then 4 else 2) ∧ FrameBut [.pc] s t) ∧
    (∃ t, exec (.sneReg x y) s = .next t ∧ t.pc = s.pc + (if s.reg x = s.reg y then 2 else 4) ∧ FrameBut [.pc] s t)

/-- SKP and SKNP on a key number 0 to 15 (44_input_timers.md R220, R221). -/
def Obligations.SkipsOnKeys : Prop :=
  ∀ (s : State) (x k : Reg), (s.reg x).toNat = k.val →
    (∃ t, exec (.skp x) s = .next t ∧ t.pc = s.pc + (if s.keys[k] = true then 4 else 2) ∧ FrameBut [.pc] s t) ∧
    (∃ t, exec (.sknp x) s = .next t ∧ t.pc = s.pc + (if s.keys[k] = true then 2 else 4) ∧ FrameBut [.pc] s t)

/-- A parked core stays parked, and a cycle of it changes only DT, ST and audio (40_cycle.md R132: the definition is the
spec's decision D26). -/
def Obligations.ParkedStaysParked : Prop :=
  ∀ s : State, Parked s → ∃ t, step s = .next t ∧ Parked t ∧ FrameBut [.dt, .st, .audio] s t

/-! ## Registers -/

/-- LD Vx,byte and ADD Vx,byte, from the word to the result: modulo 256, with no flag (42_alu.md R172, R173). -/
def Obligations.LoadAndAddImmediate : Prop :=
  ∀ (s : State) (m : SecondaryDecode) (x : Reg) (nn : Byte),
    (decodeWord m (BitVec.ofNat 16 (0x6000 + x.val * 256 + nn.toNat)) = .ok (.ldByte x nn) ∧
      ∃ t, exec (.ldByte x nn) s = .next t ∧ t.reg x = nn ∧ t.pc = s.pc + 2 ∧ RegsBut [x] s t ∧
        FrameBut [.pc, .regs] s t) ∧
    (decodeWord m (BitVec.ofNat 16 (0x7000 + x.val * 256 + nn.toNat)) = .ok (.addByte x nn) ∧
      ∃ t, exec (.addByte x nn) s = .next t ∧ (t.reg x).toNat = ((s.reg x).toNat + nn.toNat) % 256 ∧ t.pc = s.pc + 2 ∧
        RegsBut [x] s t ∧ FrameBut [.pc, .regs] s t)

/-- LD, OR, AND and XOR of two registers, bit by bit, with no flag (42_alu.md R174–R177). -/
def Obligations.CopyAndLogic : Prop :=
  ∀ (s : State) (x y : Reg),
    let quiet : State → Prop := fun t => t.pc = s.pc + 2 ∧ RegsBut [x] s t ∧ FrameBut [.pc, .regs] s t
    (∃ t, exec (.ldReg x y) s = .next t ∧ t.reg x = s.reg y ∧ quiet t) ∧
    (∃ t, exec (.orReg x y) s = .next t ∧
      (∀ b, (t.reg x).getLsbD b = ((s.reg x).getLsbD b || (s.reg y).getLsbD b)) ∧ quiet t) ∧
    (∃ t, exec (.andReg x y) s = .next t ∧
      (∀ b, (t.reg x).getLsbD b = ((s.reg x).getLsbD b && (s.reg y).getLsbD b)) ∧ quiet t) ∧
    (∃ t, exec (.xorReg x y) s = .next t ∧
      (∀ b, (t.reg x).getLsbD b = ((s.reg x).getLsbD b ^^ (s.reg y).getLsbD b)) ∧ quiet t)

/-- ADD, SUB, SHR, SUBN and SHL for every X and Y and every VF_ALIAS: flag and result in plain arithmetic, the order of the
two writes where VF is an operand, and nothing else written (42_alu.md R170, R178–R182; the three orders are the spec's
decision D8). -/
def Obligations.FlagOperations : Prop :=
  ∀ op ∈ flagInstrs, ∀ (s : State) (x y : Reg),
    let a := (s.reg x).toNat
    let b := (s.reg y).toNat
    ∃ t, exec (op.instr x y) s = .next t ∧ t.pc = s.pc + 2 ∧ RegsBut [x, vf] s t ∧ FrameBut [.pc, .regs] s t ∧
      (x ≠ vf → y ≠ vf → (t.reg x).toNat = op.res a b ∧ (t.reg vf).toNat = op.flag a b) ∧
      (x ≠ vf → y = vf → (t.reg vf).toNat = op.flag a b ∧
        (t.reg x).toNat = match s.params.vfAlias with
          | .sequential => op.res a (op.flag a b)
          | .resultLast => op.res a b
          | .flagLast   => op.res a b) ∧
      (x = vf → (t.reg vf).toNat = match s.params.vfAlias with
          | .sequential => op.res (op.flag a b) (if y = vf then op.flag a b else b)
          | .resultLast => op.res a b
          | .flagLast   => op.flag a b)

/-- RND Vx,byte: the draw masked by NN, for every draw; the next execution takes another (42_alu.md R183; the free draw is
the spec's decision D11 and log 2). -/
def Obligations.RndMasksTheDraw : Prop :=
  ∀ (s : State) (x : Reg) (nn : Byte),
    ∃ t, exec (.rnd x nn) s = .next t ∧ t.reg x = Config.freeByte s.draws &&& nn ∧
      (∀ b, (t.reg x).getLsbD b = true → nn.getLsbD b = true) ∧ t.draws = s.draws + 1 ∧ t.pc = s.pc + 2 ∧
      RegsBut [x] s t ∧ FrameBut [.pc, .regs, .draws] s t

/-! ## Display -/

/-- CLS: every cell 0, redraw requested, VF and everything else unchanged (43_display.md R200). -/
def Obligations.ClsClearsTheDisplay : Prop :=
  ∀ s : State, ∃ t, exec .cls s = .next t ∧ (∀ c, t.disp.getLsbD c = false) ∧ t.redraw = true ∧ t.pc = s.pc + 2 ∧
    FrameBut [.pc, .disp, .redraw] s t

/-- DRW toggles exactly the pixels under the sprite's set bits, wrapping at both edges; VF is 1 exactly when one of them
was lit; redraw is requested; a sprite of no rows needs no memory (43_display.md R201–R204, R206; the bounds condition is
the spec's decision D5, the place of VF's write D9, the bit order D19). -/
def Obligations.DrwXorsTheSprite : Prop :=
  ∀ (s : State) (x y : Reg) (n : BitVec 4), n.toNat = 0 ∨ s.idx.toNat + n.toNat ≤ 0x1000 →
    let covers := spriteCovers (s.reg x).toNat (s.reg y).toNat n.toNat fun r => s.byteAt (s.idx.toNat + r)
    let collides : Prop := ∃ px py, px < 64 ∧ py < 32 ∧ covers px py = true ∧ s.disp.getLsbD (px + py * 64) = true
    ∃ t, exec (.drw x y n) s = .next t ∧
      (∀ px py, px < 64 → py < 32 → t.disp.getLsbD (px + py * 64) = (s.disp.getLsbD (px + py * 64) ^^ covers px py)) ∧
      (collides → t.reg vf = 1) ∧ (¬ collides → t.reg vf = 0) ∧ t.redraw = true ∧ t.pc = s.pc + 2 ∧
      RegsBut [vf] s t ∧ FrameBut [.pc, .regs, .disp, .redraw] s t

/-- The toggle law: a second DRW with the same bytes, coordinates and row count restores every cell, and its VF is 1
exactly when some cell under the sprite was dark before the first (43_display.md R205, which the spec marks derived; D5,
D9, D19). -/
def Obligations.DrwTwiceRestores : Prop :=
  ∀ (s t u v : State) (x y x' y' : Reg) (n : BitVec 4),
    s.fault = none → u.fault = none →
    exec (.drw x y n) s = .next t → t.fault = none → u.disp = t.disp → u.idx = s.idx →
    (∀ r, r < n.toNat → u.byteAt (s.idx.toNat + r) = s.byteAt (s.idx.toNat + r)) →
    u.reg x' = s.reg x → u.reg y' = s.reg y → exec (.drw x' y' n) u = .next v →
    v.disp = s.disp ∧
    (v.reg vf = 1 ↔ ∃ px py, px < 64 ∧ py < 32 ∧ s.disp.getLsbD (px + py * 64) = false ∧
      spriteCovers (s.reg x).toNat (s.reg y).toNat n.toNat (fun r => s.byteAt (s.idx.toNat + r)) px py = true)

/-! ## Keys and timers -/

/-- LD Vx,K with a key pressed gives the highest pressed key; with none it changes nothing, pc included
(44_input_timers.md R223). -/
def Obligations.WaitForKey : Prop :=
  ∀ (s : State) (x : Reg),
    ((∀ k : Reg, s.keys[k] = false) → exec (.ldVxK x) s = .next s) ∧
    (∀ k : Reg, s.keys[k] = true → (∀ j : Reg, k < j → s.keys[j] = false) →
      ∃ t, exec (.ldVxK x) s = .next t ∧ (t.reg x).toNat = k.val ∧ t.pc = s.pc + 2 ∧ RegsBut [x] s t ∧
        FrameBut [.pc, .regs] s t)

/-- The key wait lasts for as many cycles as the host presses no key, with the timers counting, and ends in the first cycle
with a key (44_input_timers.md R227; 10_state.md R45). -/
def Obligations.KeyWaitLastsUntilAKey : Prop :=
  ∀ (s : State) (w : Word) (x : Reg) (n : Nat), s.fault = none → fetch s = .ok w →
    decodeWord s.params.secondaryDecode w = .ok (.ldVxK x) → (∀ k : Reg, s.keys[k] = false) →
    let t := serveAll (List.replicate n .step) s
    FrameBut [.dt, .st, .audio] s t ∧ t.dt.toNat = s.dt.toNat - n ∧ t.st.toNat = s.st.toNat - n ∧
    ∀ (keys : Vector Bool 16) (k : Reg), keys[k] = true → (∀ j : Reg, k < j → keys[j] = false) →
      ((serveAll [.setKeys keys, .step] t).reg x).toNat = k.val ∧ (serveAll [.setKeys keys, .step] t).pc = s.pc + 2

/-- LD Vx,DT, LD DT,Vx and LD ST,Vx before the tick (44_input_timers.md R222, R224, R225). -/
def Obligations.TimerMoves : Prop :=
  ∀ (s : State) (x : Reg),
    (∃ t, exec (.ldVxDt x) s = .next t ∧ t.reg x = s.dt ∧ t.pc = s.pc + 2 ∧ RegsBut [x] s t ∧
      FrameBut [.pc, .regs] s t) ∧
    (∃ t, exec (.ldDtVx x) s = .next t ∧ t.dt = s.reg x ∧ t.pc = s.pc + 2 ∧ FrameBut [.pc, .dt] s t) ∧
    (∃ t, exec (.ldStVx x) s = .next t ∧ t.st = s.reg x ∧ t.pc = s.pc + 2 ∧ FrameBut [.pc, .st] s t)

/-! ## The index register and memory -/

/-- LD I,addr, from the word to the result (45_index_memory.md R240). -/
def Obligations.LoadIndex : Prop :=
  ∀ (s : State) (m : SecondaryDecode) (nnn : Nat), nnn < 0x1000 →
    decodeWord m (BitVec.ofNat 16 (0xA000 + nnn)) = .ok (.ldI (BitVec.ofNat 16 nnn)) ∧
    ∃ t, exec (.ldI (BitVec.ofNat 16 nnn)) s = .next t ∧ t.idx.toNat = nnn ∧ t.pc = s.pc + 2 ∧ FrameBut [.pc, .idx] s t

/-- LD F,Vx: the whole byte times 5 (45_index_memory.md R242). -/
def Obligations.FontGlyphAddress : Prop :=
  ∀ (s : State) (x : Reg),
    ∃ t, exec (.ldF x) s = .next t ∧ t.idx.toNat = (s.reg x).toNat * 5 ∧ t.pc = s.pc + 2 ∧ FrameBut [.pc, .idx] s t

/-- ADD I,Vx for every X and every VF_ALIAS: VF from the exact sum, I modulo 65536, and with X = 0xF under SEQUENTIAL the
new VF added (45_index_memory.md R241: the spec's decisions D7, D8). -/
def Obligations.AddIndex : Prop :=
  ∀ (s : State) (x : Reg),
    let sum := s.idx.toNat + (s.reg x).toNat
    let flag := if sum > 0xFFF then 1 else 0
    ∃ t, exec (.addI x) s = .next t ∧ (t.reg vf).toNat = flag ∧
      t.idx.toNat = (if x = vf ∧ s.params.vfAlias = .sequential then (s.idx.toNat + flag) % 65536 else sum % 65536) ∧
      t.pc = s.pc + 2 ∧ RegsBut [vf] s t ∧ FrameBut [.pc, .regs, .idx] s t

/-- LD B,Vx: the three decimal digits of Vx at I, I + 1 and I + 2, and no other byte (45_index_memory.md R243; the address
conditions are the spec's decisions D5, D6, and the unchanged I D21). -/
def Obligations.DecimalDigits : Prop :=
  ∀ (s : State) (x : Reg), 0x050 ≤ s.idx.toNat → s.idx.toNat + 2 ≤ 0xFFF →
    ∃ t, exec (.ldB x) s = .next t ∧
      (t.byteAt s.idx.toNat).toNat * 100 + (t.byteAt (s.idx.toNat + 1)).toNat * 10 + (t.byteAt (s.idx.toNat + 2)).toNat =
        (s.reg x).toNat ∧
      (t.byteAt s.idx.toNat).toNat ≤ 2 ∧ (t.byteAt (s.idx.toNat + 1)).toNat ≤ 9 ∧
      (t.byteAt (s.idx.toNat + 2)).toNat ≤ 9 ∧
      BytesBut s.idx.toNat 3 s t ∧ t.pc = s.pc + 2 ∧ FrameBut [.pc, .mem] s t

/-- LD [I],Vx: V0..VX at I upward, and no other byte (45_index_memory.md R244; D5, D6, D21). -/
def Obligations.StoreRegisters : Prop :=
  ∀ (s : State) (x : Reg), 0x050 ≤ s.idx.toNat → s.idx.toNat + x.val ≤ 0xFFF →
    ∃ t, exec (.stRegs x) s = .next t ∧ (∀ k : Reg, k ≤ x → t.byteAt (s.idx.toNat + k.val) = s.reg k) ∧
      BytesBut s.idx.toNat (x.val + 1) s t ∧ t.pc = s.pc + 2 ∧ FrameBut [.pc, .mem] s t

/-- LD Vx,[I]: the bytes from I upward into V0..VX, and no other register (45_index_memory.md R245; D5, D21). -/
def Obligations.LoadRegisters : Prop :=
  ∀ (s : State) (x : Reg), s.idx.toNat + x.val ≤ 0xFFF →
    ∃ t, exec (.ldRegs x) s = .next t ∧ (∀ k : Reg, k ≤ x → t.reg k = s.byteAt (s.idx.toNat + k.val)) ∧
      (∀ k : Reg, x < k → t.reg k = s.reg k) ∧ t.pc = s.pc + 2 ∧ FrameBut [.pc, .regs] s t

/-- Registers stored and loaded again come back, whatever happened to the registers between (45_index_memory.md R244, R245;
the unchanged I is the spec's decision D21). -/
def Obligations.StoreThenLoadRestores : Prop :=
  ∀ (s t u : State) (x : Reg), s.fault = none → exec (.stRegs x) s = .next t → t.fault = none →
    u.mem = t.mem → u.params = t.params → u.idx = t.idx →
    ∃ v, exec (.ldRegs x) u = .next v ∧ ∀ k : Reg, k ≤ x → v.reg k = s.reg k

/-- A stored byte is what the next cycle fetches: after LD [I],Vx over code, the word fetched at I + k is made of the
registers stored there (20_memory.md R77, 70_reset_and_hazards.md R300). -/
def Obligations.StoreIsSeenByTheFetch : Prop :=
  ∀ (s t : State) (x k k' : Reg), s.fault = none → exec (.stRegs x) s = .next t → t.fault = none →
    k'.val = k.val + 1 → k' ≤ x →
    fetch (tick (t.setPc (BitVec.ofNat 16 (s.idx.toNat + k.val)))) = .ok (wordOfBytes (s.reg k) (s.reg k'))
end

