-- ==== Sys2Proof/Laws/Decode.lean ====
section
/-! SUPPORT. The fields of the words the encoder packs, format by format (spec/30_encoding.md R91), and the byte layout. -/

namespace Sys2Proof

/-- Concatenation as arithmetic (spec/00_scope.md R10). -/
theorem append_toNat {m k : Nat} (a : BitVec m) (b : BitVec k) : (a ++ b).toNat = a.toNat * 2 ^ k + b.toNat := by
  rw [BitVec.toNat_append, Nat.shiftLeft_eq, Nat.mul_comm, ← Nat.two_pow_add_eq_or_of_lt b.isLt]

section
variable (op n : BitVec 4) (x y : Reg) (nn : Byte) (addr : Word)

theorem packXB_toNat : (packXB op x nn).toNat = op.toNat * 4096 + x.val * 256 + nn.toNat := by
  simp only [packXB, append_toNat, BitVec.toNat_ofFin]
  omega

theorem packXYN_toNat :
    (packXYN op x y n).toNat = op.toNat * 4096 + x.val * 256 + y.val * 16 + n.toNat := by
  simp only [packXYN, append_toNat, BitVec.toNat_ofFin]
  omega

theorem packA_toNat : (packA op addr).toNat = op.toNat * 4096 + addr.toNat % 4096 := by
  simp only [packA, append_toNat, BitVec.extractLsb'_toNat, Nat.shiftRight_zero]
  omega

end

/-! The fields as arithmetic on the word's number. -/

variable (w : Word)

theorem fieldOp_toNat : (fieldOp w).toNat = w.toNat / 4096 := by
  have := w.isLt
  simp only [fieldOp, BitVec.extractLsb'_toNat, Nat.shiftRight_eq_div_pow]
  omega

theorem fieldX_val : (fieldX w).val = w.toNat / 256 % 16 := by
  simp [fieldX, Nat.shiftRight_eq_div_pow]

theorem fieldY_val : (fieldY w).val = w.toNat / 16 % 16 := by
  simp [fieldY, Nat.shiftRight_eq_div_pow]

theorem fieldN_toNat : (fieldN w).toNat = w.toNat % 16 := by
  simp [fieldN, BitVec.extractLsb'_toNat]

theorem fieldNN_toNat : (fieldNN w).toNat = w.toNat % 256 := by
  simp [fieldNN, BitVec.extractLsb'_toNat]

theorem fieldNNN_toNat : (fieldNNN w).toNat = w.toNat % 4096 := by
  simp only [fieldNNN, BitVec.toNat_setWidth, BitVec.extractLsb'_toNat, Nat.shiftRight_zero]
  omega

/-! The fields of a packed word are the operands that went into it. -/

section
variable (op n : BitVec 4) (x y : Reg) (nn : Byte) (addr : Word)

@[simp] theorem fieldOp_packXB : fieldOp (packXB op x nn) = op := by
  apply BitVec.eq_of_toNat_eq
  rw [fieldOp_toNat, packXB_toNat]
  omega
@[simp] theorem fieldX_packXB : fieldX (packXB op x nn) = x := by
  apply Fin.ext
  rw [fieldX_val, packXB_toNat]
  omega
@[simp] theorem fieldNN_packXB : fieldNN (packXB op x nn) = nn := by
  apply BitVec.eq_of_toNat_eq
  rw [fieldNN_toNat, packXB_toNat]
  omega
theorem fieldN_packXB : fieldN (packXB op x nn) = BitVec.ofNat 4 nn.toNat := by
  apply BitVec.eq_of_toNat_eq
  rw [fieldN_toNat, packXB_toNat, BitVec.toNat_ofNat]
  omega
@[simp] theorem fieldOp_packXYN : fieldOp (packXYN op x y n) = op := by
  apply BitVec.eq_of_toNat_eq
  rw [fieldOp_toNat, packXYN_toNat]
  omega
@[simp] theorem fieldX_packXYN : fieldX (packXYN op x y n) = x := by
  apply Fin.ext
  rw [fieldX_val, packXYN_toNat]
  omega
@[simp] theorem fieldY_packXYN : fieldY (packXYN op x y n) = y := by
  apply Fin.ext
  rw [fieldY_val, packXYN_toNat]
  omega
@[simp] theorem fieldN_packXYN : fieldN (packXYN op x y n) = n := by
  apply BitVec.eq_of_toNat_eq
  rw [fieldN_toNat, packXYN_toNat]
  omega
@[simp] theorem fieldOp_packA : fieldOp (packA op addr) = op := by
  apply BitVec.eq_of_toNat_eq
  rw [fieldOp_toNat, packA_toNat]
  omega
theorem fieldNNN_packA (h : addr.toNat < 0x1000) : fieldNNN (packA op addr) = addr := by
  apply BitVec.eq_of_toNat_eq
  rw [fieldNNN_toNat, packA_toNat]
  omega

end

/-- The word of two bytes, as a number (20_memory.md R70). -/
theorem wordOfBytes_toNat (hi lo : Byte) : (wordOfBytes hi lo).toNat = hi.toNat * 256 + lo.toNat :=
  append_toNat hi lo

/-- Laying a word out and reading it back. -/
@[simp] theorem wordOfBytes_hi_lo : wordOfBytes (hiByte w) (loByte w) = w := by
  apply BitVec.eq_of_toNat_eq
  have := w.isLt
  simp only [wordOfBytes_toNat, hiByte, loByte, BitVec.extractLsb'_toNat, Nat.shiftRight_eq_div_pow, Nat.pow_zero,
    Nat.div_one]
  omega

end Sys2Proof
end

