-- ==== Sys2Proof/Laws/State.lean ====
section
/-! SUPPORT. What each update of the state does to each field: one lemma a field and an update, all true by definition,
so that no later proof unfolds a record update. -/

namespace Sys2Proof.Machine

variable (s : State)

/-! ### `setReg` -/

@[simp] theorem setReg_mem (x : Reg) (b : Byte) : (s.setReg x b).mem = s.mem := rfl
@[simp] theorem setReg_v (x : Reg) (b : Byte) : (s.setReg x b).v = s.v.set x b := rfl
@[simp] theorem setReg_idx (x : Reg) (b : Byte) : (s.setReg x b).idx = s.idx := rfl
@[simp] theorem setReg_pc (x : Reg) (b : Byte) : (s.setReg x b).pc = s.pc := rfl
@[simp] theorem setReg_stack (x : Reg) (b : Byte) : (s.setReg x b).stack = s.stack := rfl
@[simp] theorem setReg_sp (x : Reg) (b : Byte) : (s.setReg x b).sp = s.sp := rfl
@[simp] theorem setReg_dt (x : Reg) (b : Byte) : (s.setReg x b).dt = s.dt := rfl
@[simp] theorem setReg_st (x : Reg) (b : Byte) : (s.setReg x b).st = s.st := rfl
@[simp] theorem setReg_disp (x : Reg) (b : Byte) : (s.setReg x b).disp = s.disp := rfl
@[simp] theorem setReg_redraw (x : Reg) (b : Byte) : (s.setReg x b).redraw = s.redraw := rfl
@[simp] theorem setReg_keys (x : Reg) (b : Byte) : (s.setReg x b).keys = s.keys := rfl
@[simp] theorem setReg_audio (x : Reg) (b : Byte) : (s.setReg x b).audio = s.audio := rfl
@[simp] theorem setReg_fault (x : Reg) (b : Byte) : (s.setReg x b).fault = s.fault := rfl
@[simp] theorem setReg_params (x : Reg) (b : Byte) : (s.setReg x b).params = s.params := rfl
@[simp] theorem setReg_draws (x : Reg) (b : Byte) : (s.setReg x b).draws = s.draws := rfl
@[simp] theorem setReg_byteAt (x : Reg) (b : Byte) (c : Nat) : (s.setReg x b).byteAt c = s.byteAt c := rfl

/-! ### `setIdx` -/

@[simp] theorem setIdx_mem (a : Word) : (s.setIdx a).mem = s.mem := rfl
@[simp] theorem setIdx_v (a : Word) : (s.setIdx a).v = s.v := rfl
@[simp] theorem setIdx_idx (a : Word) : (s.setIdx a).idx = a := rfl
@[simp] theorem setIdx_pc (a : Word) : (s.setIdx a).pc = s.pc := rfl
@[simp] theorem setIdx_stack (a : Word) : (s.setIdx a).stack = s.stack := rfl
@[simp] theorem setIdx_sp (a : Word) : (s.setIdx a).sp = s.sp := rfl
@[simp] theorem setIdx_dt (a : Word) : (s.setIdx a).dt = s.dt := rfl
@[simp] theorem setIdx_st (a : Word) : (s.setIdx a).st = s.st := rfl
@[simp] theorem setIdx_disp (a : Word) : (s.setIdx a).disp = s.disp := rfl
@[simp] theorem setIdx_redraw (a : Word) : (s.setIdx a).redraw = s.redraw := rfl
@[simp] theorem setIdx_keys (a : Word) : (s.setIdx a).keys = s.keys := rfl
@[simp] theorem setIdx_audio (a : Word) : (s.setIdx a).audio = s.audio := rfl
@[simp] theorem setIdx_fault (a : Word) : (s.setIdx a).fault = s.fault := rfl
@[simp] theorem setIdx_params (a : Word) : (s.setIdx a).params = s.params := rfl
@[simp] theorem setIdx_draws (a : Word) : (s.setIdx a).draws = s.draws := rfl
@[simp] theorem setIdx_byteAt (a : Word) (c : Nat) : (s.setIdx a).byteAt c = s.byteAt c := rfl
@[simp] theorem setIdx_reg (a : Word) (r : Reg) : (s.setIdx a).reg r = s.reg r := rfl

/-! ### `setPc` -/

@[simp] theorem setPc_mem (a : Word) : (s.setPc a).mem = s.mem := rfl
@[simp] theorem setPc_v (a : Word) : (s.setPc a).v = s.v := rfl
@[simp] theorem setPc_idx (a : Word) : (s.setPc a).idx = s.idx := rfl
@[simp] theorem setPc_pc (a : Word) : (s.setPc a).pc = a := rfl
@[simp] theorem setPc_stack (a : Word) : (s.setPc a).stack = s.stack := rfl
@[simp] theorem setPc_sp (a : Word) : (s.setPc a).sp = s.sp := rfl
@[simp] theorem setPc_dt (a : Word) : (s.setPc a).dt = s.dt := rfl
@[simp] theorem setPc_st (a : Word) : (s.setPc a).st = s.st := rfl
@[simp] theorem setPc_disp (a : Word) : (s.setPc a).disp = s.disp := rfl
@[simp] theorem setPc_redraw (a : Word) : (s.setPc a).redraw = s.redraw := rfl
@[simp] theorem setPc_keys (a : Word) : (s.setPc a).keys = s.keys := rfl
@[simp] theorem setPc_audio (a : Word) : (s.setPc a).audio = s.audio := rfl
@[simp] theorem setPc_fault (a : Word) : (s.setPc a).fault = s.fault := rfl
@[simp] theorem setPc_params (a : Word) : (s.setPc a).params = s.params := rfl
@[simp] theorem setPc_draws (a : Word) : (s.setPc a).draws = s.draws := rfl
@[simp] theorem setPc_byteAt (a : Word) (c : Nat) : (s.setPc a).byteAt c = s.byteAt c := rfl
@[simp] theorem setPc_reg (a : Word) (r : Reg) : (s.setPc a).reg r = s.reg r := rfl

/-! ### `setDt` -/

@[simp] theorem setDt_mem (b : Byte) : (s.setDt b).mem = s.mem := rfl
@[simp] theorem setDt_v (b : Byte) : (s.setDt b).v = s.v := rfl
@[simp] theorem setDt_idx (b : Byte) : (s.setDt b).idx = s.idx := rfl
@[simp] theorem setDt_pc (b : Byte) : (s.setDt b).pc = s.pc := rfl
@[simp] theorem setDt_stack (b : Byte) : (s.setDt b).stack = s.stack := rfl
@[simp] theorem setDt_sp (b : Byte) : (s.setDt b).sp = s.sp := rfl
@[simp] theorem setDt_dt (b : Byte) : (s.setDt b).dt = b := rfl
@[simp] theorem setDt_st (b : Byte) : (s.setDt b).st = s.st := rfl
@[simp] theorem setDt_disp (b : Byte) : (s.setDt b).disp = s.disp := rfl
@[simp] theorem setDt_redraw (b : Byte) : (s.setDt b).redraw = s.redraw := rfl
@[simp] theorem setDt_keys (b : Byte) : (s.setDt b).keys = s.keys := rfl
@[simp] theorem setDt_audio (b : Byte) : (s.setDt b).audio = s.audio := rfl
@[simp] theorem setDt_fault (b : Byte) : (s.setDt b).fault = s.fault := rfl
@[simp] theorem setDt_params (b : Byte) : (s.setDt b).params = s.params := rfl
@[simp] theorem setDt_draws (b : Byte) : (s.setDt b).draws = s.draws := rfl
@[simp] theorem setDt_byteAt (b : Byte) (c : Nat) : (s.setDt b).byteAt c = s.byteAt c := rfl
@[simp] theorem setDt_reg (b : Byte) (r : Reg) : (s.setDt b).reg r = s.reg r := rfl

/-! ### `setSt` -/

@[simp] theorem setSt_mem (b : Byte) : (s.setSt b).mem = s.mem := rfl
@[simp] theorem setSt_v (b : Byte) : (s.setSt b).v = s.v := rfl
@[simp] theorem setSt_idx (b : Byte) : (s.setSt b).idx = s.idx := rfl
@[simp] theorem setSt_pc (b : Byte) : (s.setSt b).pc = s.pc := rfl
@[simp] theorem setSt_stack (b : Byte) : (s.setSt b).stack = s.stack := rfl
@[simp] theorem setSt_sp (b : Byte) : (s.setSt b).sp = s.sp := rfl
@[simp] theorem setSt_dt (b : Byte) : (s.setSt b).dt = s.dt := rfl
@[simp] theorem setSt_st (b : Byte) : (s.setSt b).st = b := rfl
@[simp] theorem setSt_disp (b : Byte) : (s.setSt b).disp = s.disp := rfl
@[simp] theorem setSt_redraw (b : Byte) : (s.setSt b).redraw = s.redraw := rfl
@[simp] theorem setSt_keys (b : Byte) : (s.setSt b).keys = s.keys := rfl
@[simp] theorem setSt_audio (b : Byte) : (s.setSt b).audio = s.audio := rfl
@[simp] theorem setSt_fault (b : Byte) : (s.setSt b).fault = s.fault := rfl
@[simp] theorem setSt_params (b : Byte) : (s.setSt b).params = s.params := rfl
@[simp] theorem setSt_draws (b : Byte) : (s.setSt b).draws = s.draws := rfl
@[simp] theorem setSt_byteAt (b : Byte) (c : Nat) : (s.setSt b).byteAt c = s.byteAt c := rfl
@[simp] theorem setSt_reg (b : Byte) (r : Reg) : (s.setSt b).reg r = s.reg r := rfl

/-! ### `setByte` -/

@[simp] theorem setByte_mem (a : Nat) (b : Byte) : (s.setByte a b).mem = writeMem s.params.font s.mem a b := rfl
@[simp] theorem setByte_v (a : Nat) (b : Byte) : (s.setByte a b).v = s.v := rfl
@[simp] theorem setByte_idx (a : Nat) (b : Byte) : (s.setByte a b).idx = s.idx := rfl
@[simp] theorem setByte_pc (a : Nat) (b : Byte) : (s.setByte a b).pc = s.pc := rfl
@[simp] theorem setByte_stack (a : Nat) (b : Byte) : (s.setByte a b).stack = s.stack := rfl
@[simp] theorem setByte_sp (a : Nat) (b : Byte) : (s.setByte a b).sp = s.sp := rfl
@[simp] theorem setByte_dt (a : Nat) (b : Byte) : (s.setByte a b).dt = s.dt := rfl
@[simp] theorem setByte_st (a : Nat) (b : Byte) : (s.setByte a b).st = s.st := rfl
@[simp] theorem setByte_disp (a : Nat) (b : Byte) : (s.setByte a b).disp = s.disp := rfl
@[simp] theorem setByte_redraw (a : Nat) (b : Byte) : (s.setByte a b).redraw = s.redraw := rfl
@[simp] theorem setByte_keys (a : Nat) (b : Byte) : (s.setByte a b).keys = s.keys := rfl
@[simp] theorem setByte_audio (a : Nat) (b : Byte) : (s.setByte a b).audio = s.audio := rfl
@[simp] theorem setByte_fault (a : Nat) (b : Byte) : (s.setByte a b).fault = s.fault := rfl
@[simp] theorem setByte_params (a : Nat) (b : Byte) : (s.setByte a b).params = s.params := rfl
@[simp] theorem setByte_draws (a : Nat) (b : Byte) : (s.setByte a b).draws = s.draws := rfl
@[simp] theorem setByte_reg (a : Nat) (b : Byte) (r : Reg) : (s.setByte a b).reg r = s.reg r := rfl

/-! ### `advance` -/

@[simp] theorem advance_mem : s.advance.mem = s.mem := rfl
@[simp] theorem advance_v : s.advance.v = s.v := rfl
@[simp] theorem advance_idx : s.advance.idx = s.idx := rfl
@[simp] theorem advance_pc : s.advance.pc = s.pc + 2 := rfl
@[simp] theorem advance_stack : s.advance.stack = s.stack := rfl
@[simp] theorem advance_sp : s.advance.sp = s.sp := rfl
@[simp] theorem advance_dt : s.advance.dt = s.dt := rfl
@[simp] theorem advance_st : s.advance.st = s.st := rfl
@[simp] theorem advance_disp : s.advance.disp = s.disp := rfl
@[simp] theorem advance_redraw : s.advance.redraw = s.redraw := rfl
@[simp] theorem advance_keys : s.advance.keys = s.keys := rfl
@[simp] theorem advance_audio : s.advance.audio = s.audio := rfl
@[simp] theorem advance_fault : s.advance.fault = s.fault := rfl
@[simp] theorem advance_params : s.advance.params = s.params := rfl
@[simp] theorem advance_draws : s.advance.draws = s.draws := rfl
@[simp] theorem advance_byteAt (c : Nat) : s.advance.byteAt c = s.byteAt c := rfl
@[simp] theorem advance_reg (r : Reg) : s.advance.reg r = s.reg r := rfl

/-! ### `skipIf` -/

@[simp] theorem skipIf_mem (c : Bool) : (s.skipIf c).mem = s.mem := rfl
@[simp] theorem skipIf_v (c : Bool) : (s.skipIf c).v = s.v := rfl
@[simp] theorem skipIf_idx (c : Bool) : (s.skipIf c).idx = s.idx := rfl
@[simp] theorem skipIf_pc (c : Bool) : (s.skipIf c).pc = if c then s.pc + 4 else s.pc + 2 := rfl
@[simp] theorem skipIf_stack (c : Bool) : (s.skipIf c).stack = s.stack := rfl
@[simp] theorem skipIf_sp (c : Bool) : (s.skipIf c).sp = s.sp := rfl
@[simp] theorem skipIf_dt (c : Bool) : (s.skipIf c).dt = s.dt := rfl
@[simp] theorem skipIf_st (c : Bool) : (s.skipIf c).st = s.st := rfl
@[simp] theorem skipIf_disp (c : Bool) : (s.skipIf c).disp = s.disp := rfl
@[simp] theorem skipIf_redraw (c : Bool) : (s.skipIf c).redraw = s.redraw := rfl
@[simp] theorem skipIf_keys (c : Bool) : (s.skipIf c).keys = s.keys := rfl
@[simp] theorem skipIf_audio (c : Bool) : (s.skipIf c).audio = s.audio := rfl
@[simp] theorem skipIf_fault (c : Bool) : (s.skipIf c).fault = s.fault := rfl
@[simp] theorem skipIf_params (c : Bool) : (s.skipIf c).params = s.params := rfl
@[simp] theorem skipIf_draws (c : Bool) : (s.skipIf c).draws = s.draws := rfl
@[simp] theorem skipIf_byteAt (c : Bool) (p : Nat) : (s.skipIf c).byteAt p = s.byteAt p := rfl
@[simp] theorem skipIf_reg (c : Bool) (r : Reg) : (s.skipIf c).reg r = s.reg r := rfl

/-! ### `undecoded` -/

@[simp] theorem undecoded_mem : (undecoded s).mem = s.mem := rfl
@[simp] theorem undecoded_v : (undecoded s).v = s.v := rfl
@[simp] theorem undecoded_idx : (undecoded s).idx = s.idx := rfl
@[simp] theorem undecoded_pc : (undecoded s).pc = s.pc + undecodedBytes s.params.undecodedStep := rfl
@[simp] theorem undecoded_stack : (undecoded s).stack = s.stack := rfl
@[simp] theorem undecoded_sp : (undecoded s).sp = s.sp := rfl
@[simp] theorem undecoded_dt : (undecoded s).dt = s.dt := rfl
@[simp] theorem undecoded_st : (undecoded s).st = s.st := rfl
@[simp] theorem undecoded_disp : (undecoded s).disp = s.disp := rfl
@[simp] theorem undecoded_redraw : (undecoded s).redraw = s.redraw := rfl
@[simp] theorem undecoded_keys : (undecoded s).keys = s.keys := rfl
@[simp] theorem undecoded_audio : (undecoded s).audio = s.audio := rfl
@[simp] theorem undecoded_fault : (undecoded s).fault = s.fault := rfl
@[simp] theorem undecoded_params : (undecoded s).params = s.params := rfl
@[simp] theorem undecoded_draws : (undecoded s).draws = s.draws := rfl
@[simp] theorem undecoded_byteAt (c : Nat) : (undecoded s).byteAt c = s.byteAt c := rfl
@[simp] theorem undecoded_reg (r : Reg) : (undecoded s).reg r = s.reg r := rfl

/-! ### `tick` -/

@[simp] theorem tick_mem : (tick s).mem = s.mem := rfl
@[simp] theorem tick_v : (tick s).v = s.v := rfl
@[simp] theorem tick_idx : (tick s).idx = s.idx := rfl
@[simp] theorem tick_pc : (tick s).pc = s.pc := rfl
@[simp] theorem tick_stack : (tick s).stack = s.stack := rfl
@[simp] theorem tick_sp : (tick s).sp = s.sp := rfl
@[simp] theorem tick_dt : (tick s).dt = countDown s.dt := rfl
@[simp] theorem tick_st : (tick s).st = countDown s.st := rfl
@[simp] theorem tick_disp : (tick s).disp = s.disp := rfl
@[simp] theorem tick_redraw : (tick s).redraw = s.redraw := rfl
@[simp] theorem tick_keys : (tick s).keys = s.keys := rfl
@[simp] theorem tick_audio : (tick s).audio = decide (s.st = 1) := rfl
@[simp] theorem tick_fault : (tick s).fault = s.fault := rfl
@[simp] theorem tick_params : (tick s).params = s.params := rfl
@[simp] theorem tick_draws : (tick s).draws = s.draws := rfl
@[simp] theorem tick_byteAt (c : Nat) : (tick s).byteAt c = s.byteAt c := rfl
@[simp] theorem tick_reg (r : Reg) : (tick s).reg r = s.reg r := rfl

/-! ### `setKeys` -/

@[simp] theorem setKeys_mem (k : Vector Bool 16) : (setKeys k s).mem = s.mem := rfl
@[simp] theorem setKeys_v (k : Vector Bool 16) : (setKeys k s).v = s.v := rfl
@[simp] theorem setKeys_idx (k : Vector Bool 16) : (setKeys k s).idx = s.idx := rfl
@[simp] theorem setKeys_pc (k : Vector Bool 16) : (setKeys k s).pc = s.pc := rfl
@[simp] theorem setKeys_stack (k : Vector Bool 16) : (setKeys k s).stack = s.stack := rfl
@[simp] theorem setKeys_sp (k : Vector Bool 16) : (setKeys k s).sp = s.sp := rfl
@[simp] theorem setKeys_dt (k : Vector Bool 16) : (setKeys k s).dt = s.dt := rfl
@[simp] theorem setKeys_st (k : Vector Bool 16) : (setKeys k s).st = s.st := rfl
@[simp] theorem setKeys_disp (k : Vector Bool 16) : (setKeys k s).disp = s.disp := rfl
@[simp] theorem setKeys_redraw (k : Vector Bool 16) : (setKeys k s).redraw = s.redraw := rfl
@[simp] theorem setKeys_keys (k : Vector Bool 16) : (setKeys k s).keys = k := rfl
@[simp] theorem setKeys_audio (k : Vector Bool 16) : (setKeys k s).audio = s.audio := rfl
@[simp] theorem setKeys_fault (k : Vector Bool 16) : (setKeys k s).fault = s.fault := rfl
@[simp] theorem setKeys_params (k : Vector Bool 16) : (setKeys k s).params = s.params := rfl
@[simp] theorem setKeys_draws (k : Vector Bool 16) : (setKeys k s).draws = s.draws := rfl
@[simp] theorem setKeys_byteAt (k : Vector Bool 16) (c : Nat) : (setKeys k s).byteAt c = s.byteAt c := rfl
@[simp] theorem setKeys_reg (k : Vector Bool 16) (r : Reg) : (setKeys k s).reg r = s.reg r := rfl

/-! ### `clearRedraw` -/

@[simp] theorem clearRedraw_mem : (clearRedraw s).mem = s.mem := rfl
@[simp] theorem clearRedraw_v : (clearRedraw s).v = s.v := rfl
@[simp] theorem clearRedraw_idx : (clearRedraw s).idx = s.idx := rfl
@[simp] theorem clearRedraw_pc : (clearRedraw s).pc = s.pc := rfl
@[simp] theorem clearRedraw_stack : (clearRedraw s).stack = s.stack := rfl
@[simp] theorem clearRedraw_sp : (clearRedraw s).sp = s.sp := rfl
@[simp] theorem clearRedraw_dt : (clearRedraw s).dt = s.dt := rfl
@[simp] theorem clearRedraw_st : (clearRedraw s).st = s.st := rfl
@[simp] theorem clearRedraw_disp : (clearRedraw s).disp = s.disp := rfl
@[simp] theorem clearRedraw_redraw : (clearRedraw s).redraw = false := rfl
@[simp] theorem clearRedraw_keys : (clearRedraw s).keys = s.keys := rfl
@[simp] theorem clearRedraw_audio : (clearRedraw s).audio = s.audio := rfl
@[simp] theorem clearRedraw_fault : (clearRedraw s).fault = s.fault := rfl
@[simp] theorem clearRedraw_params : (clearRedraw s).params = s.params := rfl
@[simp] theorem clearRedraw_draws : (clearRedraw s).draws = s.draws := rfl
@[simp] theorem clearRedraw_byteAt (c : Nat) : (clearRedraw s).byteAt c = s.byteAt c := rfl
@[simp] theorem clearRedraw_reg (r : Reg) : (clearRedraw s).reg r = s.reg r := rfl

/-! ### Reading a register after a write -/

theorem setReg_reg (x r : Reg) (b : Byte) : (s.setReg x b).reg r = if r = x then b else s.reg r := by
  simp only [State.reg, State.setReg, Fin.getElem_fin, Vector.getElem_set]
  by_cases h : r = x
  · simp [h]
  · have : ¬ x.val = r.val := fun e => h (Fin.ext e.symm)
    simp [h, this]

@[simp] theorem setReg_reg_same (x : Reg) (b : Byte) : (s.setReg x b).reg x = b := by simp [setReg_reg]

theorem setReg_reg_ne (x r : Reg) (b : Byte) (h : r ≠ x) : (s.setReg x b).reg r = s.reg r := by simp [setReg_reg, h]

end Sys2Proof.Machine
end

