-- ==== Sys2Proof/Laws/Display.lean ====
section
/-! SUPPORT. The laws of the blitter (spec/43_display.md): a pixel has one cell, the cells of a sprite are distinct, and a
blit of distinct cells toggles each of them once. -/

namespace Sys2Proof.Machine

/-- Two pixels share a cell only if they agree modulo the display's size. -/
theorem cellAt_inj {x y x' y' : Nat} (h : cellAt x y = cellAt x' y') : x % 64 = x' % 64 ∧ y % 32 = y' % 32 := by
  have := congrArg Fin.val h
  simp only [cellAt] at this
  omega

/-- The cells of one row, and where they come from. -/
theorem mem_rowCells {x y : Nat} {row : Byte} {i : Fin 2048} :
    i ∈ rowCells x y row ↔ ∃ c < 8, row.getLsbD (7 - c) = true ∧ cellAt (x + c) y = i := by
  simp only [rowCells, List.mem_map, List.mem_filter]
  constructor
  · rintro ⟨c, ⟨hc, hb⟩, rfl⟩
    exact ⟨c, by simp at hc; omega, hb, rfl⟩
  · rintro ⟨c, hc, hb, rfl⟩
    exact ⟨c, ⟨by simp; omega, hb⟩, rfl⟩

/-- The cells of a sprite, and where they come from. -/
theorem mem_spriteCells {x y : Nat} {rows : List Byte} {i : Fin 2048} :
    i ∈ spriteCells x y rows ↔
      ∃ r, ∃ h : r < rows.length, ∃ c < 8, rows[r].getLsbD (7 - c) = true ∧ cellAt (x + c) (y + r) = i := by
  induction rows generalizing y with
  | nil => simp [spriteCells]
  | cons row rows ih =>
    rw [spriteCells, List.mem_append, mem_rowCells, ih]
    constructor
    · rintro (⟨c, hc, hb, rfl⟩ | ⟨r, hr, c, hc, hb, rfl⟩)
      · exact ⟨0, by simp, c, hc, hb, rfl⟩
      · exact ⟨r + 1, by simpa using hr, c, hc, hb, by rw [show y + (r + 1) = y + 1 + r by omega]⟩
    · rintro ⟨r, hr, c, hc, hb, rfl⟩
      cases r with
      | zero => exact .inl ⟨c, hc, hb, rfl⟩
      | succ r => exact .inr ⟨r, by simpa using hr, c, hc, hb, by rw [show y + 1 + r = y + (r + 1) by omega]⟩

theorem rowCells_nodup (x y : Nat) (row : Byte) : (rowCells x y row).Nodup := by
  refine List.Nodup.map_on (fun c hc d hd e => ?_) (List.Nodup.filter _ (by decide))
  have := (cellAt_inj e).1
  simp only [List.mem_filter, List.mem_cons, List.not_mem_nil, or_false] at hc hd
  omega

/-- A sprite is at most 8 by 15 and the display 64 by 32, so its cells are distinct. -/
theorem spriteCells_nodup (x y : Nat) (rows : List Byte) (h : rows.length ≤ 32) : (spriteCells x y rows).Nodup := by
  induction rows generalizing y with
  | nil => exact List.nodup_nil
  | cons row rows ih =>
    simp only [List.length_cons] at h
    refine List.nodup_append.2 ⟨rowCells_nodup x y row, ih (y + 1) (by omega), fun i hi j hj e => ?_⟩
    subst e
    obtain ⟨c, -, -, e1⟩ := mem_rowCells.1 hi
    obtain ⟨r, hr, d, -, -, e2⟩ := mem_spriteCells.1 hj
    have := (cellAt_inj (e1.trans e2.symm)).2
    omega

/-- Folding toggles over distinct cells: every named cell is toggled, no other, and a collision is a named lit cell. -/
theorem foldl_toggleCell (d : Display) (b : Bool) (cells : List (Fin 2048)) (h : cells.Nodup) :
    (∀ i : Fin 2048, (cells.foldl toggleCell (d, b)).1.getLsbD i = (d.getLsbD i ^^ decide (i ∈ cells))) ∧
    (cells.foldl toggleCell (d, b)).2 = (b || cells.any fun i => d.getLsbD i) := by
  induction cells generalizing d b with
  | nil => simp
  | cons c cells ih =>
    obtain ⟨hc, hn⟩ := List.nodup_cons.1 h
    simp only [List.foldl_cons, toggleCell]
    obtain ⟨h1, h2⟩ := ih (d ^^^ BitVec.twoPow 2048 c.val) (b || d.getLsbD c.val) hn
    constructor
    · intro i
      rw [h1 i]
      simp only [BitVec.getLsbD_xor, BitVec.getLsbD_twoPow]
      by_cases e : i = c
      · subst e; simp [hc]
      · have : ¬ c.val = i.val := fun x => e (Fin.ext x.symm)
        simp [e, this]
    · rw [h2, List.any_cons, Bool.or_assoc]
      congr 2
      rw [Bool.eq_iff_iff]
      simp only [List.any_eq_true]
      refine exists_congr fun i => and_congr_right fun hi => ?_
      have : ¬ c.val = i.val := fun x => hc (Fin.ext x ▸ hi)
      rw [BitVec.getLsbD_xor, BitVec.getLsbD_twoPow]
      simp only [this, decide_false, Bool.and_false, Bool.xor_false]

/-- A blit of distinct cells. -/
theorem blit_spec (d : Display) (cells : List (Fin 2048)) (h : cells.Nodup) :
    (∀ i : Fin 2048, (blit d cells).1.getLsbD i = (d.getLsbD i ^^ decide (i ∈ cells))) ∧
    (blit d cells).2 = cells.any fun i => d.getLsbD i := by
  simpa [blit] using foldl_toggleCell d false cells h

end Sys2Proof.Machine
end

