-- ==== Sys2Proof/Laws/Memory.lean ====
section
/-! SUPPORT. The laws of memory: a byte reads as it was last written, a write leaves every other byte alone, and every
memory operation keeps the canonical form. -/

namespace Sys2Proof.Machine

variable (f : Font) (m : Memory) (a c : Nat) (b : Byte)

theorem lookup_insertCell : lookup c (insertCell a b m) = if c = a then some b else lookup c m := by
  induction m with
  | nil => simp [insertCell, lookup, eq_comm]
  | cons d ds ih =>
    simp only [insertCell]
    split
    · simp [lookup, eq_comm]
    · split
      · next h => subst h; by_cases e : c = d.1 <;> simp [lookup, e, eq_comm]
      · next h =>
        simp only [lookup, ih]
        by_cases e : d.1 = c
        · simp [e, show c ≠ a by omega]
        · simp [e]

theorem lookup_removeCell : lookup c (removeCell a m) = if c = a then none else lookup c m := by
  induction m with
  | nil => simp [removeCell, lookup]
  | cons d ds ih =>
    by_cases e : d.1 = a
    · simp only [removeCell, lookup, e, if_true, ih]
      by_cases h : c = a
      · simp [h]
      · simp [h, show ¬ a = c by omega]
    · simp only [removeCell, lookup, e, if_false, ih]
      by_cases h : d.1 = c
      · simp [h, show ¬ c = a by omega]
      · simp [h]

/-- A byte reads as it was last written, and every other byte as before. -/
theorem readMem_writeMem : readMem f (writeMem f m a b) c = if c = a then b else readMem f m c := by
  unfold readMem writeMem
  split
  · next h =>
    rw [lookup_removeCell]
    by_cases e : c = a
    · simp [e, h]
    · simp [e]
  · rw [lookup_insertCell]
    by_cases e : c = a <;> simp [e]

theorem mem_insertCell (d : Host.Cell) (h : d ∈ insertCell a b m) : d = (a, b) ∨ d ∈ m := by
  induction m with
  | nil => simpa [insertCell] using h
  | cons e es ih =>
    simp only [insertCell] at h
    split at h
    · simpa using h
    · split at h
      · simp only [List.mem_cons] at h ⊢
        exact h.imp_right .inr
      · simp only [List.mem_cons] at h ⊢
        rcases h with h | h
        · exact .inr (.inl h)
        · exact (ih h).imp_right .inr

theorem mem_removeCell (d : Host.Cell) (h : d ∈ removeCell a m) : d ∈ m := by
  induction m with
  | nil => simp [removeCell] at h
  | cons e es ih =>
    simp only [removeCell] at h
    split at h
    · exact List.mem_cons_of_mem _ (ih h)
    · simp only [List.mem_cons] at h ⊢
      exact h.imp_right ih

theorem insertCell_pairwise (h : m.Pairwise (fun c d => c.1 < d.1)) :
    (insertCell a b m).Pairwise (fun c d => c.1 < d.1) := by
  induction m with
  | nil => simp [insertCell]
  | cons e es ih =>
    rw [List.pairwise_cons] at h
    simp only [insertCell]
    split
    · next lt =>
      refine List.pairwise_cons.2 ⟨fun d hd => ?_, List.pairwise_cons.2 h⟩
      rcases List.mem_cons.1 hd with rfl | hd
      · exact lt
      · exact lt.trans (h.1 d hd)
    · split
      · next eq => exact List.pairwise_cons.2 ⟨fun d hd => by simpa [eq] using h.1 d hd, h.2⟩
      · next nlt ne =>
        refine List.pairwise_cons.2 ⟨fun d hd => ?_, ih h.2⟩
        rcases mem_insertCell es a b d hd with rfl | hd
        · simp only; omega
        · exact h.1 d hd

theorem removeCell_pairwise (h : m.Pairwise (fun c d => c.1 < d.1)) :
    (removeCell a m).Pairwise (fun c d => c.1 < d.1) := by
  induction m with
  | nil => simp [removeCell]
  | cons e es ih =>
    rw [List.pairwise_cons] at h
    simp only [removeCell]
    split
    · exact ih h.2
    · exact List.pairwise_cons.2 ⟨fun d hd => h.1 d (mem_removeCell es a d hd), ih h.2⟩

/-- A write inside the address space keeps the canonical form. -/
theorem writeMem_wf (h : Memory.wf f m) (ha : a < 4096) : Memory.wf f (writeMem f m a b) := by
  unfold writeMem
  split
  · exact ⟨removeCell_pairwise m a h.1, fun d hd => h.2 d (mem_removeCell m a d hd)⟩
  · next ne =>
    refine ⟨insertCell_pairwise m a b h.1, fun d hd => ?_⟩
    rcases mem_insertCell m a b d hd with rfl | hd
    · exact ⟨ha, ne⟩
    · exact h.2 d hd

/-- An address below every listed one is not listed. -/
theorem lookup_of_lt (m : Memory) (a : Nat) (h : ∀ d ∈ m, a < d.1) : lookup a m = none := by
  induction m with
  | nil => rfl
  | cons e es ih =>
    have := h e List.mem_cons_self
    simp only [lookup, show ¬ e.1 = a by omega, if_false]
    exact ih fun d hd => h d (List.mem_cons_of_mem _ hd)

variable (s : State)

/-- The read-after-write law at the level of the state. -/
theorem setByte_byteAt : (s.setByte a b).byteAt c = if c = a then b else s.byteAt c :=
  readMem_writeMem s.params.font s.mem a c b

/-! ## The loader's write and the program's block write -/

/-- `loaderWrite` writes memory alone. -/
theorem loaderWrite_eq (bs : List Byte) :
    loaderWrite s a bs = { s with mem := (loaderWrite s a bs).mem } := by
  induction bs generalizing s a with
  | nil => rfl
  | cons b bs ih => rw [loaderWrite, ih (a + 1) (s.setByte a b)]; rfl

@[simp] theorem loaderWrite_v (bs : List Byte) : (loaderWrite s a bs).v = s.v := by rw [loaderWrite_eq]
@[simp] theorem loaderWrite_idx (bs : List Byte) : (loaderWrite s a bs).idx = s.idx := by rw [loaderWrite_eq]
@[simp] theorem loaderWrite_pc (bs : List Byte) : (loaderWrite s a bs).pc = s.pc := by rw [loaderWrite_eq]
@[simp] theorem loaderWrite_stack (bs : List Byte) : (loaderWrite s a bs).stack = s.stack := by rw [loaderWrite_eq]
@[simp] theorem loaderWrite_sp (bs : List Byte) : (loaderWrite s a bs).sp = s.sp := by rw [loaderWrite_eq]
@[simp] theorem loaderWrite_dt (bs : List Byte) : (loaderWrite s a bs).dt = s.dt := by rw [loaderWrite_eq]
@[simp] theorem loaderWrite_st (bs : List Byte) : (loaderWrite s a bs).st = s.st := by rw [loaderWrite_eq]
@[simp] theorem loaderWrite_disp (bs : List Byte) : (loaderWrite s a bs).disp = s.disp := by rw [loaderWrite_eq]
@[simp] theorem loaderWrite_redraw (bs : List Byte) : (loaderWrite s a bs).redraw = s.redraw := by rw [loaderWrite_eq]
@[simp] theorem loaderWrite_keys (bs : List Byte) : (loaderWrite s a bs).keys = s.keys := by rw [loaderWrite_eq]
@[simp] theorem loaderWrite_audio (bs : List Byte) : (loaderWrite s a bs).audio = s.audio := by rw [loaderWrite_eq]
@[simp] theorem loaderWrite_fault (bs : List Byte) : (loaderWrite s a bs).fault = s.fault := by rw [loaderWrite_eq]
@[simp] theorem loaderWrite_params (bs : List Byte) : (loaderWrite s a bs).params = s.params := by rw [loaderWrite_eq]
@[simp] theorem loaderWrite_draws (bs : List Byte) : (loaderWrite s a bs).draws = s.draws := by rw [loaderWrite_eq]
@[simp] theorem loaderWrite_reg (bs : List Byte) (r : Reg) : (loaderWrite s a bs).reg r = s.reg r := by
  rw [loaderWrite_eq]; rfl

theorem loaderWrite_byteAt (bs : List Byte) :
    (loaderWrite s a bs).byteAt c = if h : a ≤ c ∧ c < a + bs.length then bs[c - a] else s.byteAt c := by
  induction bs generalizing s a with
  | nil => simp [loaderWrite]
  | cons b bs ih =>
    rw [loaderWrite, ih (a + 1) (s.setByte a b), setByte_byteAt]
    by_cases e : c = a
    · subst e; simp
    · by_cases h : a + 1 ≤ c ∧ c < a + 1 + bs.length
      · have h' : a ≤ c ∧ c < a + (b :: bs).length := by simp; omega
        rw [dif_pos h, dif_pos h', List.getElem_cons]
        simp [show ¬ c - a = 0 by omega, show c - (a + 1) = c - a - 1 by omega]
      · have h' : ¬ (a ≤ c ∧ c < a + (b :: bs).length) := by simp; omega
        rw [dif_neg h, dif_neg h', if_neg e]

theorem loaderWrite_wf (bs : List Byte) (h : Memory.wf s.params.font s.mem) (hn : a + bs.length ≤ 4096) :
    Memory.wf s.params.font (loaderWrite s a bs).mem := by
  induction bs generalizing s a with
  | nil => exact h
  | cons b bs ih =>
    simp only [List.length_cons] at hn
    exact ih (a + 1) (s.setByte a b) (writeMem_wf _ _ _ _ h (by omega)) (by omega)

/-- A program's write keeps the canonical form. -/
theorem memWrite_wf (t : State) (h : Memory.wf s.params.font s.mem) (ht : memWrite s a b = .ok t) :
    Memory.wf t.params.font t.mem := by
  unfold memWrite at ht
  split at ht
  · cases ht
  · split at ht
    · cases ht
    · cases ht; exact writeMem_wf _ _ _ _ h (by omega)

/-- Memory that lists nothing, as reset leaves it, is canonical. -/
theorem reset_memory_wf (p : Params) (n : Nat) :
    Memory.wf (State.resetWith p n).params.font (State.resetWith p n).mem :=
  ⟨List.Pairwise.nil, fun _ h => absurd h List.not_mem_nil⟩

end Sys2Proof.Machine
end

