-- ==== Sys2Proof/Laws/Ops.lean ====
section
/-! SUPPORT. One lemma for each shared operation, saying once everything it can do: block accesses, register runs, the key
scan, flag operations, the fetch and the end of a cycle. -/

namespace Sys2Proof.Machine

variable (s t : State)

/-! ## Block accesses (spec/45_index_memory.md R246) -/

/-- A block that lies in memory is read whole. -/
theorem readBlock_ok (a n : Nat) (h : n = 0 ∨ a + n ≤ 0x1000) :
    readBlock s a n = .ok ((List.range n).map fun k => s.byteAt (a + k)) := by
  induction n generalizing a with
  | zero => rfl
  | succ n ih =>
    have le : ¬ a > 0xFFF := by omega
    have tail := ih (a + 1) (by omega)
    simp only [readBlock, memRead, if_neg le, tail, List.range_succ_eq_map, List.map_cons, List.map_map,
      Nat.add_zero]
    congr 2
    refine List.map_congr_left fun k _ => ?_
    simp only [Function.comp]
    congr 1
    omega

/-- A block that leaves memory fails at its first address above 0xFFF. -/
theorem readBlock_bounds (a n : Nat) (hn : n ≠ 0) (h : a + n > 0x1000) :
    readBlock s a n = .error ⟨.memoryBounds, max a 0x1000⟩ := by
  induction n generalizing a with
  | zero => exact absurd rfl hn
  | succ n ih =>
    by_cases ha : a > 0xFFF
    · simp [readBlock, memRead, ha, show max a 0x1000 = a by omega]
    · have tail := ih (a + 1) (by omega) (by omega)
      rw [show max (a + 1) 0x1000 = max a 0x1000 by omega] at tail
      simp [readBlock, memRead, ha, tail]

/-- A block above the font and inside memory is written whole. -/
theorem writeBlock_ok (a : Nat) (bs : List Byte) (lo : 0x050 ≤ a) (hi : a + bs.length ≤ 0x1000) :
    writeBlock s a bs = .ok (loaderWrite s a bs) := by
  induction bs generalizing s a with
  | nil => rfl
  | cons b bs ih =>
    simp only [List.length_cons] at hi
    simp only [writeBlock, memWrite, loaderWrite, show ¬ a > 0xFFF by omega, show ¬ a ≤ 0x04F by omega, if_false]
    exact ih (s.setByte a b) (a + 1) (by omega) (by omega)

/-- A block that begins in the font region fails at its first address. -/
theorem writeBlock_font (a : Nat) (bs : List Byte) (hb : bs ≠ []) (lo : a ≤ 0x04F) :
    writeBlock s a bs = .error ⟨.fontWrite, a⟩ := by
  cases bs with
  | nil => exact absurd rfl hb
  | cons b bs => simp [writeBlock, memWrite, show ¬ a > 0xFFF by omega, lo]

/-- A block above the font that leaves memory fails at its first address above 0xFFF. -/
theorem writeBlock_bounds (a : Nat) (bs : List Byte) (hb : bs ≠ []) (lo : 0x050 ≤ a) (hi : a + bs.length > 0x1000) :
    writeBlock s a bs = .error ⟨.memoryBounds, max a 0x1000⟩ := by
  induction bs generalizing s a with
  | nil => exact absurd rfl hb
  | cons b bs ih =>
    by_cases ha : a > 0xFFF
    · simp [writeBlock, memWrite, ha, show max a 0x1000 = a by omega]
    · simp only [List.length_cons] at hi
      have ne : bs ≠ [] := by rintro rfl; simp at hi; omega
      have tail := ih (s.setByte a b) (a + 1) ne (by omega) (by omega)
      rw [show max (a + 1) 0x1000 = max a 0x1000 by omega] at tail
      simp only [writeBlock, memWrite, ha, show ¬ a ≤ 0x04F by omega, if_false, tail]

/-- What a block write that succeeds did: it wrote memory alone, above the font and inside memory. -/
theorem writeBlock_cases (a : Nat) (bs : List Byte) (h : writeBlock s a bs = .ok t) :
    t = loaderWrite s a bs ∧ (bs = [] ∨ (0x050 ≤ a ∧ a + bs.length ≤ 0x1000)) := by
  by_cases hb : bs = []
  · subst hb; simp only [writeBlock, Except.ok.injEq] at h; exact ⟨h.symm, .inl rfl⟩
  · by_cases lo : a ≤ 0x04F
    · rw [writeBlock_font s a bs hb lo] at h; cases h
    · by_cases hi : a + bs.length ≤ 0x1000
      · rw [writeBlock_ok s a bs (by omega) hi] at h
        exact ⟨(Except.ok.inj h).symm, .inr ⟨by omega, hi⟩⟩
      · rw [writeBlock_bounds s a bs hb (by omega) (by omega)] at h; cases h

/-- A block write keeps the canonical form. -/
theorem writeBlock_wf (a : Nat) (bs : List Byte) (hm : Memory.wf s.params.font s.mem) (h : writeBlock s a bs = .ok t) :
    Memory.wf t.params.font t.mem := by
  induction bs generalizing s a with
  | nil => cases h; exact hm
  | cons b bs ih =>
    simp only [writeBlock] at h
    split at h
    · cases h
    · next u hu => exact ih u (a + 1) (memWrite_wf _ _ _ u hm hu) h

@[simp] theorem digits_length (b : Byte) : (digits b).length = 3 := rfl

@[simp] theorem regsUpTo_length (x : Reg) : (regsUpTo s x).length = x.val + 1 := by
  simp [regsUpTo]

theorem regsUpTo_getElem (x : Reg) (k : Nat) (h : k < (regsUpTo s x).length) :
    (regsUpTo s x)[k] = s.reg ⟨k, by simp at h; omega⟩ := by
  simp [regsUpTo, State.reg]

/-- `fillRegs` writes the run of registers from `k`, and no other. -/
theorem fillRegs_getElem (v : Vector Byte 16) (k : Nat) (bs : List Byte) (r : Nat) (hr : r < 16) :
    (fillRegs v k bs)[r] = if h : k ≤ r ∧ r < k + bs.length then bs[r - k] else v[r] := by
  induction bs generalizing v k with
  | nil => simp [fillRegs]
  | cons b bs ih =>
    rw [fillRegs, ih (v.setIfInBounds k b) (k + 1), Vector.getElem_setIfInBounds]
    by_cases e : r = k
    · subst e; simp
    · by_cases h : k + 1 ≤ r ∧ r < k + 1 + bs.length
      · have h' : k ≤ r ∧ r < k + (b :: bs).length := by simp; omega
        rw [dif_pos h, dif_pos h', List.getElem_cons]
        simp [show ¬ r - k = 0 by omega, show r - (k + 1) = r - k - 1 by omega]
      · have h' : ¬ (k ≤ r ∧ r < k + (b :: bs).length) := by simp; omega
        rw [dif_neg h, dif_neg h', if_neg (by omega)]

/-! ## Keys (spec/44_input_timers.md) -/

theorem keyAt_ok (b : Byte) (h : b.toNat < 16) : keyAt s b = .ok s.keys[b.toNat] := by simp [keyAt, h]

theorem keyAt_error (b : Byte) (h : ¬ b.toNat < 16) : keyAt s b = .error ⟨.keyIndex, b.toNat⟩ := by simp [keyAt, h]

/-- The scan as one choice, from the highest key down. -/
theorem scanKeys_eq (keys : Vector Bool 16) :
    scanKeys keys = keyOrder.reverse.find? fun k => keys[k] := by
  unfold scanKeys
  generalize keyOrder = l
  induction l using List.reverseRecOn with
  | nil => rfl
  | append_singleton l k ih =>
    simp only [List.foldl_append, List.foldl_cons, List.foldl_nil, List.reverse_append, List.reverse_cons,
      List.reverse_nil, List.nil_append, List.singleton_append, List.find?_cons, ih]
    split <;> simp_all

theorem mem_keyOrder (k : Reg) : k ∈ keyOrder := by revert k; decide

/-- No key is found exactly when none is pressed. -/
theorem scanKeys_none (keys : Vector Bool 16) : scanKeys keys = none ↔ ∀ k : Reg, keys[k] = false := by
  rw [scanKeys_eq, List.find?_eq_none]
  constructor
  · intro h k
    simpa using h k (List.mem_reverse.2 (mem_keyOrder k))
  · intro h k _
    simpa using h k

/-- The key found is pressed, and no higher one is. -/
theorem scanKeys_some (keys : Vector Bool 16) (k : Reg) (hk : keys[k] = true)
    (hj : ∀ j : Reg, k < j → keys[j] = false) : scanKeys keys = some k := by
  have split_at : ∀ k : Reg, keyOrder.reverse = keyOrder.reverse.take (15 - k.val) ++ k :: keyOrder.reverse.drop (16 - k.val) ∧
      ∀ j ∈ keyOrder.reverse.take (15 - k.val), k < j := by decide
  rw [scanKeys_eq, List.find?_eq_some_iff_append]
  refine ⟨hk, _, _, (split_at k).1, fun j h => ?_⟩
  simpa using hj j ((split_at k).2 j h)

/-! ## Flag operations (spec/42_alu.md R170) -/

/-- A flag operation writes V[X], VF and pc, and nothing else. -/
theorem flagOp_eq (x y : Reg) (f g : Byte → Byte → Byte) :
    flagOp x y f g s = { s with v := (flagOp x y f g s).v, pc := s.pc + 2 } := by
  unfold flagOp
  cases s.params.vfAlias <;> rfl

section
variable (x y : Reg) (f g : Byte → Byte → Byte)
@[simp] theorem flagOp_mem : (flagOp x y f g s).mem = s.mem := by rw [flagOp_eq]
@[simp] theorem flagOp_idx : (flagOp x y f g s).idx = s.idx := by rw [flagOp_eq]
@[simp] theorem flagOp_stack : (flagOp x y f g s).stack = s.stack := by rw [flagOp_eq]
@[simp] theorem flagOp_sp : (flagOp x y f g s).sp = s.sp := by rw [flagOp_eq]
@[simp] theorem flagOp_dt : (flagOp x y f g s).dt = s.dt := by rw [flagOp_eq]
@[simp] theorem flagOp_st : (flagOp x y f g s).st = s.st := by rw [flagOp_eq]
@[simp] theorem flagOp_disp : (flagOp x y f g s).disp = s.disp := by rw [flagOp_eq]
@[simp] theorem flagOp_redraw : (flagOp x y f g s).redraw = s.redraw := by rw [flagOp_eq]
@[simp] theorem flagOp_keys : (flagOp x y f g s).keys = s.keys := by rw [flagOp_eq]
@[simp] theorem flagOp_audio : (flagOp x y f g s).audio = s.audio := by rw [flagOp_eq]
@[simp] theorem flagOp_fault : (flagOp x y f g s).fault = s.fault := by rw [flagOp_eq]
@[simp] theorem flagOp_params : (flagOp x y f g s).params = s.params := by rw [flagOp_eq]
@[simp] theorem flagOp_draws : (flagOp x y f g s).draws = s.draws := by rw [flagOp_eq]
@[simp] theorem flagOp_pc : (flagOp x y f g s).pc = s.pc + 2 := by rw [flagOp_eq]
@[simp] theorem flagOp_byteAt (c : Nat) : (flagOp x y f g s).byteAt c = s.byteAt c := by rw [flagOp_eq]; rfl
end

/-- A register that is neither V[X] nor VF keeps its value. -/
theorem flagOp_reg_other (x y r : Reg) (f g : Byte → Byte → Byte) (hx : r ≠ x) (hf : r ≠ vf) :
    (flagOp x y f g s).reg r = s.reg r := by
  unfold flagOp
  cases s.params.vfAlias <;> simp [setReg_reg, hx, hf]

/-- Where neither X nor Y is 0xF, every order gives the flag of the old operands and the result of the old operands. -/
theorem flagOp_plain (x y : Reg) (f g : Byte → Byte → Byte) (hx : x ≠ vf) (hy : y ≠ vf) :
    (flagOp x y f g s).reg x = g (s.reg x) (s.reg y) ∧ (flagOp x y f g s).reg vf = f (s.reg x) (s.reg y) := by
  unfold flagOp
  have hx' : vf ≠ x := hx.symm
  cases s.params.vfAlias <;> simp [setReg_reg, hx, hy, hx']

/-- ADD I writes VF, I and pc, and nothing else. -/
theorem addIndex_eq (x : Reg) :
    addIndex x s = { s.setReg vf (indexFlag s.idx (s.reg x)) with idx := (addIndex x s).idx, pc := s.pc + 2 } := by
  unfold addIndex
  cases s.params.vfAlias <;> rfl

section
variable (x : Reg)
@[simp] theorem addIndex_mem : (addIndex x s).mem = s.mem := by rw [addIndex_eq]; rfl
@[simp] theorem addIndex_stack : (addIndex x s).stack = s.stack := by rw [addIndex_eq]; rfl
@[simp] theorem addIndex_sp : (addIndex x s).sp = s.sp := by rw [addIndex_eq]; rfl
@[simp] theorem addIndex_dt : (addIndex x s).dt = s.dt := by rw [addIndex_eq]; rfl
@[simp] theorem addIndex_st : (addIndex x s).st = s.st := by rw [addIndex_eq]; rfl
@[simp] theorem addIndex_disp : (addIndex x s).disp = s.disp := by rw [addIndex_eq]; rfl
@[simp] theorem addIndex_redraw : (addIndex x s).redraw = s.redraw := by rw [addIndex_eq]; rfl
@[simp] theorem addIndex_keys : (addIndex x s).keys = s.keys := by rw [addIndex_eq]; rfl
@[simp] theorem addIndex_audio : (addIndex x s).audio = s.audio := by rw [addIndex_eq]; rfl
@[simp] theorem addIndex_fault : (addIndex x s).fault = s.fault := by rw [addIndex_eq]; rfl
@[simp] theorem addIndex_params : (addIndex x s).params = s.params := by rw [addIndex_eq]; rfl
@[simp] theorem addIndex_draws : (addIndex x s).draws = s.draws := by rw [addIndex_eq]; rfl
@[simp] theorem addIndex_pc : (addIndex x s).pc = s.pc + 2 := by rw [addIndex_eq]
@[simp] theorem addIndex_byteAt (c : Nat) : (addIndex x s).byteAt c = s.byteAt c := by rw [addIndex_eq]; rfl
theorem addIndex_reg (r : Reg) : (addIndex x s).reg r = if r = vf then indexFlag s.idx (s.reg x) else s.reg r := by
  rw [addIndex_eq]; exact setReg_reg s vf r _
end

/-! ## The fetch and the end of a cycle (spec/40_cycle.md) -/

theorem fetch_ok (h : s.pc.toNat ≤ 0xFFE) :
    fetch s = .ok (wordOfBytes (s.byteAt s.pc.toNat) (s.byteAt (s.pc.toNat + 1))) := by
  simp [fetch, memRead, show ¬ s.pc.toNat > 0xFFF by omega, show ¬ s.pc.toNat + 1 > 0xFFF by omega]

theorem fetch_bounds (h : ¬ s.pc.toNat ≤ 0xFFE) :
    fetch s = .error ⟨.memoryBounds, max s.pc.toNat 0x1000⟩ := by
  by_cases e : s.pc.toNat > 0xFFF
  · simp [fetch, memRead, e, show max s.pc.toNat 0x1000 = s.pc.toNat by omega]
  · have : s.pc.toNat = 0xFFF := by omega
    simp [fetch, memRead, this]

/-- The ends of a cycle that has a next state. -/
theorem endCycle_cases (o : Result) (h : endCycle o = .next t) :
    ∃ u, o = .next u ∧ ((u.fault.isSome = true ∧ t = u) ∨ (u.fault = none ∧ t = tick u)) := by
  cases o with
  | next u =>
    refine ⟨u, rfl, ?_⟩
    simp only [endCycle, Host.Outcome.next.injEq] at h
    cases hu : u.fault with
    | none => right; simp [hu] at h; exact ⟨rfl, h.symm⟩
    | some r => left; simp [hu] at h; exact ⟨rfl, h.symm⟩
  | fault r => cases h
  | refused r => cases h

/-- Everything one cycle can do. -/
theorem step_cases (h : step s = .next t) :
    s.fault = none ∧
    ((∃ e, fetch s = .error e ∧ raise e s = .next t) ∨
     (∃ w i, fetch s = .ok w ∧ decodeWord s.params.secondaryDecode w = .ok i ∧ endCycle (exec i s) = .next t) ∨
     (∃ w e, fetch s = .ok w ∧ decodeWord s.params.secondaryDecode w = .error e ∧ t = tick (undecoded s))) := by
  unfold step at h
  split at h
  · cases h
  · next hf =>
    refine ⟨hf, ?_⟩
    split at h
    · next e he => exact .inl ⟨e, he, h⟩
    · next w hw =>
      split at h
      · next i hi => exact .inr (.inl ⟨w, i, hw, hi, h⟩)
      · next e he =>
        refine .inr (.inr ⟨w, e, hw, he, ?_⟩)
        simp only [endCycle, undecoded_fault, hf, Option.isSome_none, Host.Outcome.next.injEq] at h
        simpa using h.symm

end Sys2Proof.Machine
end

