-- ==== Sys2Proof/Laws/PerInstr.lean ====
section
/-! SUPPORT. A statement for every instruction: its canonical word lies in the family that spec/30_encoding.md R93, R97 give
it, under the encoder's choice of ignored bits. One lemma per constructor. -/

namespace Sys2Proof.Laws.EncodingFamily

/-- The family of an operation, the top four bits of its word (R97). -/
def family : Instr → BitVec 4
  | .cls => 0x0#4
  | .ret => 0x0#4
  | .jp _ => 0x1#4
  | .call _ => 0x2#4
  | .seByte _ _ => 0x3#4
  | .sneByte _ _ => 0x4#4
  | .seReg _ _ => 0x5#4
  | .ldByte _ _ => 0x6#4
  | .addByte _ _ => 0x7#4
  | .ldReg _ _ => 0x8#4
  | .orReg _ _ => 0x8#4
  | .andReg _ _ => 0x8#4
  | .xorReg _ _ => 0x8#4
  | .addReg _ _ => 0x8#4
  | .subReg _ _ => 0x8#4
  | .shr _ => 0x8#4
  | .subnReg _ _ => 0x8#4
  | .shl _ => 0x8#4
  | .sneReg _ _ => 0x9#4
  | .ldI _ => 0xA#4
  | .jpV0 _ => 0xB#4
  | .rnd _ _ => 0xC#4
  | .drw _ _ _ => 0xD#4
  | .skp _ => 0xE#4
  | .sknp _ => 0xE#4
  | .ldVxDt _ => 0xF#4
  | .ldVxK _ => 0xF#4
  | .ldDtVx _ => 0xF#4
  | .ldStVx _ => 0xF#4
  | .addI _ => 0xF#4
  | .ldF _ => 0xF#4
  | .ldB _ => 0xF#4
  | .stRegs _ => 0xF#4
  | .ldRegs _ => 0xF#4

/-- The canonical word of `i` is in its family. -/
def Statement (i : Instr) : Prop := fieldOp (encode i) = family i

theorem cls : Statement .cls := rfl
theorem ret : Statement .ret := rfl
theorem jp (addr : Word) : Statement (.jp addr) := fieldOp_packA _ _
theorem call (addr : Word) : Statement (.call addr) := fieldOp_packA _ _
theorem seByte (x : Reg) (nn : Byte) : Statement (.seByte x nn) := fieldOp_packXB _ _ _
theorem sneByte (x : Reg) (nn : Byte) : Statement (.sneByte x nn) := fieldOp_packXB _ _ _
theorem seReg (x : Reg) (y : Reg) : Statement (.seReg x y) := fieldOp_packXYN _ _ _ _
theorem ldByte (x : Reg) (nn : Byte) : Statement (.ldByte x nn) := fieldOp_packXB _ _ _
theorem addByte (x : Reg) (nn : Byte) : Statement (.addByte x nn) := fieldOp_packXB _ _ _
theorem ldReg (x : Reg) (y : Reg) : Statement (.ldReg x y) := fieldOp_packXYN _ _ _ _
theorem orReg (x : Reg) (y : Reg) : Statement (.orReg x y) := fieldOp_packXYN _ _ _ _
theorem andReg (x : Reg) (y : Reg) : Statement (.andReg x y) := fieldOp_packXYN _ _ _ _
theorem xorReg (x : Reg) (y : Reg) : Statement (.xorReg x y) := fieldOp_packXYN _ _ _ _
theorem addReg (x : Reg) (y : Reg) : Statement (.addReg x y) := fieldOp_packXYN _ _ _ _
theorem subReg (x : Reg) (y : Reg) : Statement (.subReg x y) := fieldOp_packXYN _ _ _ _
theorem shr (x : Reg) : Statement (.shr x) := fieldOp_packXYN _ _ _ _
theorem subnReg (x : Reg) (y : Reg) : Statement (.subnReg x y) := fieldOp_packXYN _ _ _ _
theorem shl (x : Reg) : Statement (.shl x) := fieldOp_packXYN _ _ _ _
theorem sneReg (x : Reg) (y : Reg) : Statement (.sneReg x y) := fieldOp_packXYN _ _ _ _
theorem ldI (addr : Word) : Statement (.ldI addr) := fieldOp_packA _ _
theorem jpV0 (addr : Word) : Statement (.jpV0 addr) := fieldOp_packA _ _
theorem rnd (x : Reg) (nn : Byte) : Statement (.rnd x nn) := fieldOp_packXB _ _ _
theorem drw (x : Reg) (y : Reg) (n : BitVec 4) : Statement (.drw x y n) := fieldOp_packXYN _ _ _ _
theorem skp (x : Reg) : Statement (.skp x) := fieldOp_packXB _ _ _
theorem sknp (x : Reg) : Statement (.sknp x) := fieldOp_packXB _ _ _
theorem ldVxDt (x : Reg) : Statement (.ldVxDt x) := fieldOp_packXB _ _ _
theorem ldVxK (x : Reg) : Statement (.ldVxK x) := fieldOp_packXB _ _ _
theorem ldDtVx (x : Reg) : Statement (.ldDtVx x) := fieldOp_packXB _ _ _
theorem ldStVx (x : Reg) : Statement (.ldStVx x) := fieldOp_packXB _ _ _
theorem addI (x : Reg) : Statement (.addI x) := fieldOp_packXB _ _ _
theorem ldF (x : Reg) : Statement (.ldF x) := fieldOp_packXB _ _ _
theorem ldB (x : Reg) : Statement (.ldB x) := fieldOp_packXB _ _ _
theorem stRegs (x : Reg) : Statement (.stRegs x) := fieldOp_packXB _ _ _
theorem ldRegs (x : Reg) : Statement (.ldRegs x) := fieldOp_packXB _ _ _

end Sys2Proof.Laws.EncodingFamily
end

