-- ==== Sys2Proof/Tests/Slice0.lean ====
section
/-! SUPPORT. Tests: well-formedness, decoding by words written out from spec/30_encoding.md R97, single steps with the
results of spec/95_test_vectors.md, and for every statement that has hypotheses a concrete case that meets them. -/

namespace Sys2Proof.Machine.Tests

open Sys2Proof

set_option Elab.async false

/-- Whether an outcome is a next state of which `p` holds. -/
def after (o : Result) (p : State → Prop) [DecidablePred p] : Bool :=
  match o with
  | .next t    => decide (p t)
  | .fault _   => false
  | .refused _ => false

theorem next_of_after {o : Result} {p : State → Prop} [DecidablePred p] (h : after o p = true) :
    ∃ t, o = .next t ∧ p t := by
  cases o with
  | next t    => exact ⟨t, rfl, of_decide_eq_true h⟩
  | fault _   => cases h
  | refused _ => cases h

/-- The reset state with one word at pc. -/
def at0 (w : Word) : State := placeWord State.reset w

/-- One step, the word `w` at pc of `s`. -/
def run (s : State) (w : Word) : Result := step (placeWord s w)

/-- Reset, with some registers set. -/
def regs (l : List (Reg × Byte)) : State := l.foldl (fun s p => s.setReg p.1 p.2) State.reset

/-- With pressed keys. -/
def press (l : List Reg) (s : State) : State := { s with keys := l.foldl (fun v (k : Fin 16) => v.set k true) s.keys }

/-- With lit pixels. -/
def lit (l : List (Nat × Nat)) (s : State) : State :=
  { s with disp := l.foldl (fun d p => d ||| BitVec.twoPow 2048 (p.1 + p.2 * 64)) s.disp }

/-- The lit pixels of a state are exactly these. -/
def shows (l : List (Nat × Nat)) (s : State) : Bool := decide (s.disp = (lit l State.reset).disp)

/-- With bytes in memory. -/
def bytes (a : Nat) (l : List Byte) (s : State) : State := loaderWrite s a l

/-- With another setting of a parameter. -/
def under (p : Params → Params) (s : State) : State := { s with params := p s.params }

/-! ## Well-formedness: an address operand that leaves its 12 bits is refused -/

theorem test_wf_jp   : ¬ WellFormed (.jp 0x1000) := by decide
theorem test_wf_call : ¬ WellFormed (.call 0x1000) := by decide
theorem test_wf_ldI  : ¬ WellFormed (.ldI 0xFFFF) := by decide
theorem test_wf_jpV0 : ¬ WellFormed (.jpV0 0x1000) := by decide
theorem test_wf_top  : WellFormed (.jp 0xFFF) ∧ WellFormed (.ldI 0xFFF) := by decide

/-! ## Decoding (R97: family, fields and selector written digit by digit) -/

theorem test_decode_cls     : decodeWord .nibbleLow 0x00E0 = .ok .cls := by decide
theorem test_decode_ret     : decodeWord .nibbleLow 0x00EE = .ok .ret := by decide
theorem test_decode_jp      : decodeWord .nibbleLow 0x1ABC = .ok (.jp 0xABC) := by decide
theorem test_decode_call    : decodeWord .nibbleLow 0x2210 = .ok (.call 0x210) := by decide
theorem test_decode_seByte  : decodeWord .nibbleLow 0x3A5C = .ok (.seByte 0xA 0x5C) := by decide
theorem test_decode_sneByte : decodeWord .nibbleLow 0x4F01 = .ok (.sneByte 0xF 0x01) := by decide
theorem test_decode_seReg   : decodeWord .nibbleLow 0x5129 = .ok (.seReg 1 2) := by decide
theorem test_decode_ldByte  : decodeWord .nibbleLow 0x6005 = .ok (.ldByte 0 0x05) := by decide
theorem test_decode_addByte : decodeWord .nibbleLow 0x71FF = .ok (.addByte 1 0xFF) := by decide
theorem test_decode_ldReg   : decodeWord .nibbleLow 0x8120 = .ok (.ldReg 1 2) := by decide
theorem test_decode_orReg   : decodeWord .nibbleLow 0x8341 = .ok (.orReg 3 4) := by decide
theorem test_decode_andReg  : decodeWord .nibbleLow 0x8562 = .ok (.andReg 5 6) := by decide
theorem test_decode_xorReg  : decodeWord .nibbleLow 0x8783 = .ok (.xorReg 7 8) := by decide
theorem test_decode_addReg  : decodeWord .nibbleLow 0x8124 = .ok (.addReg 1 2) := by decide
theorem test_decode_subReg  : decodeWord .nibbleLow 0x89A5 = .ok (.subReg 9 0xA) := by decide
theorem test_decode_shr     : decodeWord .nibbleLow 0x8376 = .ok (.shr 3) := by decide
theorem test_decode_subnReg : decodeWord .nibbleLow 0x8BC7 = .ok (.subnReg 0xB 0xC) := by decide
theorem test_decode_shl     : decodeWord .nibbleLow 0x81FE = .ok (.shl 1) := by decide
theorem test_decode_sneReg  : decodeWord .nibbleLow 0x9DE7 = .ok (.sneReg 0xD 0xE) := by decide
theorem test_decode_ldI     : decodeWord .nibbleLow 0xA230 = .ok (.ldI 0x230) := by decide
theorem test_decode_jpV0    : decodeWord .nibbleLow 0xBFFF = .ok (.jpV0 0xFFF) := by decide
theorem test_decode_rnd     : decodeWord .nibbleLow 0xC10F = .ok (.rnd 1 0x0F) := by decide
theorem test_decode_drw     : decodeWord .nibbleLow 0xD12F = .ok (.drw 1 2 0xF) := by decide
theorem test_decode_skp     : decodeWord .nibbleLow 0xE59E = .ok (.skp 5) := by decide
theorem test_decode_sknp    : decodeWord .nibbleLow 0xE6A1 = .ok (.sknp 6) := by decide
theorem test_decode_ldVxDt  : decodeWord .nibbleLow 0xF407 = .ok (.ldVxDt 4) := by decide
theorem test_decode_ldVxK   : decodeWord .nibbleLow 0xF50A = .ok (.ldVxK 5) := by decide
theorem test_decode_ldDtVx  : decodeWord .nibbleLow 0xF315 = .ok (.ldDtVx 3) := by decide
theorem test_decode_ldStVx  : decodeWord .nibbleLow 0xF318 = .ok (.ldStVx 3) := by decide
theorem test_decode_addI    : decodeWord .nibbleLow 0xF21E = .ok (.addI 2) := by decide
theorem test_decode_ldF     : decodeWord .nibbleLow 0xF729 = .ok (.ldF 7) := by decide
theorem test_decode_ldB     : decodeWord .nibbleLow 0xFA33 = .ok (.ldB 0xA) := by decide
theorem test_decode_stRegs  : decodeWord .nibbleLow 0xF155 = .ok (.stRegs 1) := by decide
theorem test_decode_ldRegs  : decodeWord .nibbleLow 0xFF65 = .ok (.ldRegs 0xF) := by decide

/-- R95, R102: the zero word, and non-canonical words of families 0x0 and 0xE, under both settings. -/
theorem test_decode_settings :
    decodeWord .nibbleLow 0x0000 = .ok .cls ∧ decodeWord .exact 0x0000 = .error (.undecoded0 0x0000) ∧
    decodeWord .nibbleLow 0xE01E = .ok (.skp 0) ∧ decodeWord .exact 0xE01E = .error (.undecodedE 0xE01E) ∧
    decodeWord .exact 0x00E0 = .ok .cls ∧ decodeWord .exact 0xE0A1 = .ok (.sknp 0) := by decide

/-- R100: undecoded words are rejected by their family's name, and one byte is no instruction (R90). -/
theorem test_decode_rejects :
    decodeWord .nibbleLow 0x0001 = .error (.undecoded0 0x0001) ∧
    decodeWord .nibbleLow 0x8128 = .error (.undecoded8 0x8128) ∧
    decodeWord .nibbleLow 0xE0A2 = .error (.undecodedE 0xE0A2) ∧
    decodeWord .nibbleLow 0xF0FF = .error (.undecodedF 0xF0FF) ∧ decode .nibbleLow [0x60] = .error .truncated := by decide

/-- R90: the high byte lies first. -/
theorem test_decode_bytes : decode .nibbleLow [0x60, 0x05, 0x70] = .ok (.ldByte 0 5, [0x70]) := by decide

/-- The host's table numbering: bit 0 is the word's least significant bit. -/
theorem test_decode_table :
    decodeTableWord 16 0x8124 = some (.addReg 1 2) ∧ decodeTableWord 16 0xF055 = some (.stRegs 0) := by decide

/-! ## Single steps (the ids are those of spec/95_test_vectors.md) -/

theorem test_CF3  : after (run State.reset 0x1301) (fun t => t.pc = 0x301) = true := by decide +kernel
theorem test_CF4  : after (run (State.reset.setPc 0x204) 0x2210)
    (fun t => t.stack[0] = 0x204 ∧ t.sp = 1 ∧ t.pc = 0x210) = true := by decide +kernel
theorem test_CF6  : after (run { State.reset with sp := 16 } 0x2300)
    (fun t => t.fault = some ⟨.stackOverflow, 0x200, 16⟩ ∧ t.pc = 0x200) = true := by decide +kernel
theorem test_CF7  : after (run { State.reset with pc := 0x212, sp := 1, stack := State.reset.stack.set 0 0x204 } 0x00EE)
    (fun t => t.sp = 0 ∧ t.pc = 0x206 ∧ t.stack[0] = 0x204) = true := by decide +kernel
/-- CF8, KT23: the faulting cycle does not tick. -/
theorem test_CF8  : after (run ((State.reset.setDt 5).setSt 1) 0x00EE)
    (fun t => t.fault = some ⟨.stackUnderflow, 0x200, 0⟩ ∧ t.dt = 5 ∧ t.st = 1 ∧ t.audio = false) = true := by
  decide +kernel
theorem test_CF11 : after (run (State.reset.setPc 0x208) 0x3300) (fun t => t.pc = 0x20C) = true := by decide +kernel
theorem test_CF12 : after (run ((regs [(3, 1)]).setPc 0x208) 0x3300) (fun t => t.pc = 0x20A) = true := by decide +kernel
theorem test_CF13 : after (run ((regs [(15, 1)]).setPc 0x208) 0x4F00) (fun t => t.pc = 0x20C) = true := by decide +kernel
theorem test_CF14 : after (run (State.reset.setPc 0x208) 0x4F00) (fun t => t.pc = 0x20A) = true := by decide +kernel
theorem test_CF16 : after (run (regs [(1, 7), (2, 7)]) 0x5129) (fun t => t.pc = 0x204) = true := by decide +kernel
theorem test_CF18 : after (run (regs [(1, 7), (2, 8)]) 0x9120) (fun t => t.pc = 0x204) = true := by decide +kernel
theorem test_CF19 : after (run (regs [(4, 0x55)]) 0x9440) (fun t => t.pc = 0x202) = true := by decide +kernel
theorem test_CF20 : after (run (regs [(0, 4), (3, 9)]) 0xB300) (fun t => t.pc = 0x304) = true := by decide +kernel
theorem test_CF21 : after (run (regs [(0, 0xFF)]) 0xBFFF) (fun t => t.pc = 0x10FE) = true := by decide +kernel
theorem test_CF24 : after (step (State.reset.setPc 0xFFF))
    (fun t => t.fault = some ⟨.memoryBounds, 0xFFF, 0x1000⟩) = true := by decide +kernel
theorem test_CF25 : after (step (bytes 0x201 [0x12, 0x34] (State.reset.setPc 0x201)))
    (fun t => t.pc = 0x234) = true := by decide +kernel

theorem test_AL2  : after (run (regs [(15, 1)]) 0x6F42) (fun t => t.reg 15 = 0x42 ∧ t.pc = 0x202) = true := by
  decide +kernel
theorem test_AL4  : after (run (regs [(1, 0xFF)]) 0x7101) (fun t => t.reg 1 = 0 ∧ t.reg 15 = 0) = true := by
  decide +kernel
theorem test_AL6  : after (run (regs [(2, 0x33)]) 0x8120) (fun t => t.reg 1 = 0x33 ∧ t.reg 2 = 0x33) = true := by
  decide +kernel
theorem test_AL7  : after (run (regs [(1, 0x0F), (2, 0xF0), (15, 0x5A)]) 0x8121)
    (fun t => t.reg 1 = 0xFF ∧ t.reg 15 = 0x5A) = true := by decide +kernel
theorem test_AL8  : after (run (regs [(1, 0x3C), (2, 0x0F)]) 0x8122) (fun t => t.reg 1 = 0x0C) = true := by
  decide +kernel
theorem test_AL10 : after (run (regs [(5, 0xA5)]) 0x8553) (fun t => t.reg 5 = 0) = true := by decide +kernel
theorem test_AL9  : after (run (regs [(1, 0xFF), (2, 0x0F)]) 0x8123) (fun t => t.reg 1 = 0xF0) = true := by
  decide +kernel
theorem test_AL11 : after (run (regs [(1, 0xF0), (2, 0x20), (15, 0x5A)]) 0x8124)
    (fun t => t.reg 1 = 0x10 ∧ t.reg 15 = 1) = true := by decide +kernel
theorem test_AL18 : after (run (regs [(1, 0xF0), (15, 0x20)]) 0x81F4)
    (fun t => t.reg 15 = 1 ∧ t.reg 1 = 0xF1) = true := by decide +kernel
theorem test_AL22 : after (run (regs [(1, 0x42), (2, 0x42), (15, 1)]) 0x8125)
    (fun t => t.reg 1 = 0 ∧ t.reg 15 = 0) = true := by decide +kernel
theorem test_AL25 : after (run (under (fun p => { p with vfAlias := .flagLast }) (regs [(15, 0x30), (2, 0x10)])) 0x8F25)
    (fun t => t.reg 15 = 1) = true := by decide +kernel
theorem test_AL29 : after (run (regs [(3, 4), (7, 0xFF), (15, 0x5A)]) 0x8376)
    (fun t => t.reg 3 = 2 ∧ t.reg 15 = 0) = true := by decide +kernel
theorem test_AL31 : after (run (under (fun p => { p with vfAlias := .resultLast }) (regs [(15, 5)])) 0x8F06)
    (fun t => t.reg 15 = 2) = true := by decide +kernel
theorem test_AL33 : after (run (regs [(1, 0x10), (2, 0x30), (15, 0x5A)]) 0x8127)
    (fun t => t.reg 1 = 0x20 ∧ t.reg 15 = 1) = true := by decide +kernel
theorem test_AL34 : after (run (regs [(1, 0x30), (2, 0x10), (15, 0x5A)]) 0x8127)
    (fun t => t.reg 1 = 0xE0 ∧ t.reg 15 = 0) = true := by decide +kernel
theorem test_AL36 : after (run (regs [(1, 0xF0), (15, 0x5A)]) 0x810E)
    (fun t => t.reg 1 = 0xE0 ∧ t.reg 15 = 1) = true := by decide +kernel
theorem test_AL39 : after (run (regs [(15, 0x81)]) 0x8F0E) (fun t => t.reg 15 = 2) = true := by decide +kernel
theorem test_AL41 : after (run (regs [(1, 1), (2, 2)]) 0x8128) (fun t => t.pc = 0x200 ∧ t.reg 1 = 1) = true := by
  decide +kernel
theorem test_AL42 : after (run (under (fun p => { p with undecodedStep := .two }) (regs [(1, 1)])) 0x8128)
    (fun t => t.pc = 0x202 ∧ t.reg 1 = 1) = true := by decide +kernel
/-- AL44: NN = 0 gives 0 whatever is drawn. -/
theorem test_AL44 (s : State) : ∃ t, exec (.rnd 1 0) s = .next t ∧ t.v[1] = 0 := by
  refine ⟨_, rfl, ?_⟩
  simp [State.advance, State.setPc, State.setReg]

theorem test_DI1  : after (run (lit [(0, 0), (10, 5), (63, 31)] State.reset) 0x00E0)
    (fun t => shows [] t ∧ t.redraw = true ∧ t.pc = 0x202) = true := by decide +kernel
theorem test_DI6  : after (run (lit [(63, 31)] (bytes 0x300 [0x80] ((regs [(1, 0x3F), (2, 0x1F)]).setIdx 0x300))) 0xD121)
    (fun t => shows [] t ∧ t.reg 15 = 1) = true := by decide +kernel
theorem test_DI7  : after (run (bytes 0x300 [0xFF] ((regs [(1, 62)]).setIdx 0x300)) 0xD121)
    (fun t => shows [(62, 0), (63, 0), (0, 0), (1, 0), (2, 0), (3, 0), (4, 0), (5, 0)] t ∧ t.reg 15 = 0) = true := by
  decide +kernel

theorem test_KT1  : after (run (press [9] ((regs [(0, 9)]).setPc 0x202)) 0xE09E) (fun t => t.pc = 0x206) = true := by
  decide +kernel
theorem test_KT2  : after (run ((regs [(0, 9)]).setPc 0x202) 0xE09E) (fun t => t.pc = 0x204) = true := by decide +kernel
theorem test_KT6  : after (run ((regs [(0, 9)]).setPc 0x202) 0xE0A1) (fun t => t.pc = 0x206) = true := by decide +kernel
theorem test_KT8  : after (run (regs [(0, 0xFF)]) 0xE0A1)
    (fun t => t.fault = some ⟨.keyIndex, 0x200, 0xFF⟩) = true := by decide +kernel
theorem test_KT10 : after (run (State.reset.setDt 3) 0xF407) (fun t => t.reg 4 = 3 ∧ t.dt = 2) = true := by decide +kernel
theorem test_KT12 : after (run (State.reset.setDt 2) 0xF00A)
    (fun t => t.pc = 0x200 ∧ t.reg 0 = 0 ∧ t.dt = 1) = true := by decide +kernel
theorem test_KT13 : after (run (press [3, 9] State.reset) 0xF00A) (fun t => t.reg 0 = 9 ∧ t.pc = 0x202) = true := by
  decide +kernel
theorem test_KT16 : after (run (regs [(3, 3)]) 0xF315) (fun t => t.dt = 2) = true := by decide +kernel
theorem test_KT19 : after (run (regs [(3, 1)]) 0xF318) (fun t => t.st = 0 ∧ t.audio = true) = true := by decide +kernel
theorem test_KT20 : after (run (State.reset.setSt 1) 0xF318) (fun t => t.st = 0 ∧ t.audio = false) = true := by
  decide +kernel

theorem test_IM2  : after (run (State.reset.setIdx 0x1234) 0xAFFF) (fun t => t.idx = 0xFFF) = true := by decide +kernel
theorem test_IM4  : after (run ((regs [(2, 0x0F), (15, 1)]).setIdx 0xFF0) 0xF21E)
    (fun t => t.idx = 0xFFF ∧ t.reg 15 = 0) = true := by decide +kernel
theorem test_IM7  : after (run ((regs [(2, 1)]).setIdx 0xFFFF) 0xF21E)
    (fun t => t.idx = 0 ∧ t.reg 15 = 1) = true := by decide +kernel
theorem test_IM11 : after (run (regs [(0, 0x0F)]) 0xF029) (fun t => t.idx = 0x04B) = true := by decide +kernel
theorem test_IM13 : after (run (regs [(0, 0xFF)]) 0xF029) (fun t => t.idx = 0x4FB) = true := by decide +kernel
theorem test_IM14 : after (run ((regs [(0, 123)]).setIdx 0x230) 0xF033)
    (fun t => t.byteAt 0x230 = 1 ∧ t.byteAt 0x231 = 2 ∧ t.byteAt 0x232 = 3) = true := by decide +kernel
theorem test_IM18 : after (run ((regs [(0, 1)]).setIdx 0xFFE) 0xF033)
    (fun t => t.fault = some ⟨.memoryBounds, 0x200, 0x1000⟩ ∧ t.byteAt 0xFFE = 0) = true := by decide +kernel
theorem test_IM21 : after (run ((regs [(0, 0x11), (1, 0x22), (2, 0x33)]).setIdx 0x300) 0xF155)
    (fun t => t.byteAt 0x300 = 0x11 ∧ t.byteAt 0x301 = 0x22 ∧ t.byteAt 0x302 = 0 ∧ t.idx = 0x300) = true := by
  decide +kernel
theorem test_IM24 : after (run (State.reset.setIdx 0x04F) 0xF055)
    (fun t => t.fault = some ⟨.fontWrite, 0x200, 0x04F⟩) = true := by decide +kernel
theorem test_IM26 : after (run (regs [(5, 9)]) 0xF465)
    (fun t => [t.reg 0, t.reg 1, t.reg 2, t.reg 3, t.reg 4, t.reg 5] = [0xF0, 0x90, 0x90, 0x90, 0xF0, 9]) = true := by
  decide +kernel
theorem test_IM27 : after (run (State.reset.setIdx 0xFFF) 0xF165)
    (fun t => t.fault = some ⟨.memoryBounds, 0x200, 0x1000⟩) = true := by decide +kernel

/-- LR3, LR5 and the host's view of a load: an empty image succeeds; the first step after reset runs `0000`, which is
CLS. -/
theorem test_LR5 : after (step State.reset) (fun t => t.redraw = true ∧ t.pc = 0x202) = true := by decide +kernel

/-! ## Cases that meet the hypotheses of the statements, each clause at a boundary of its range -/

theorem witness_DecodeOfEncode : WellFormed (.call 0xFFF) ∧ WellFormed (.jpV0 0) ∧ WellFormed (.drw 15 15 15) := by decide

theorem witness_DecodeConsumesTwoBytes :
    decodeWord .exact (BitVec.ofNat 16 ((0xFF : Byte).toNat * 256 + (0x65 : Byte).toNat)) = .ok (.ldRegs 15) ∧
    decode .exact [0xFF, 0x65, 0x00] = .ok (.ldRegs 15, [0x00]) := by decide

theorem witness_DecodedIsWellFormed : decodeWord .nibbleLow 0x1FFF = .ok (.jp 0xFFF) := by decide

/-- At the last address a word can be fetched from; one operation that completes and one that faults. -/
theorem witness_StepRunsTheDecodedInstruction :
    (let s := placeWord (State.reset.setPc 0xFFE) 0x00E0
     s.fault = none ∧ s.pc.toNat ≤ 0xFFE ∧
       decode s.params.secondaryDecode [s.byteAt s.pc.toNat, s.byteAt (s.pc.toNat + 1)] = .ok (.cls, []) ∧
       after (exec .cls s) (fun t => t.fault = none) = true) ∧
    (let s := at0 0x00EE
     s.fault = none ∧ s.pc.toNat ≤ 0xFFE ∧
       decode s.params.secondaryDecode [s.byteAt s.pc.toNat, s.byteAt (s.pc.toNat + 1)] = .ok (.ret, []) ∧
       after (exec .ret s) (fun t => t.fault ≠ none) = true) := by decide +kernel

theorem witness_TickRunsInEveryCycle :
    (∃ t, step (at0 0x6005) = .next t ∧ t.fault = none) ∧ (∃ t, step (at0 0x8128) = .next t ∧ t.fault = none) :=
  ⟨next_of_after (by decide +kernel), next_of_after (by decide +kernel)⟩

theorem witness_TickRunsWhileWaiting :
    (at0 0xFF0A).fault = none ∧ fetch (at0 0xFF0A) = .ok 0xFF0A ∧
    decodeWord (at0 0xFF0A).params.secondaryDecode 0xFF0A = .ok (.ldVxK 15) ∧
    ∀ k : Reg, (at0 0xFF0A).keys[k] = false := by decide +kernel

/-- LD ST,Vx with Vx = 1, LD DT,Vx with Vx = 0, LD Vx,DT and another operation with ST = 1. -/
theorem witness_AudioTrigger :
    (∃ t, step (placeWord (regs [(3, 1)]) 0xF318) = .next t ∧ t.fault = none) ∧
    fetch (placeWord (regs [(3, 1)]) 0xF318) = .ok 0xF318 ∧ decodeWord .nibbleLow 0xF318 = .ok (.ldStVx 3) ∧
    (∃ t, step (placeWord (State.reset.setSt 1) 0x6000) = .next t ∧ t.fault = none) ∧
    fetch (placeWord (State.reset.setSt 1) 0x6000) = .ok 0x6000 ∧ ∀ x : Reg, decodeWord .nibbleLow 0x6000 ≠ .ok (.ldStVx x) :=
  ⟨next_of_after (by decide +kernel), by decide +kernel, by decide, next_of_after (by decide +kernel), by decide +kernel,
    by decide⟩

theorem witness_DelayTimerOverACycle :
    (∃ t, step (at0 0xF315) = .next t ∧ t.fault = none) ∧ fetch (at0 0xF315) = .ok 0xF315 ∧
    decodeWord .nibbleLow 0xF315 = .ok (.ldDtVx 3) ∧
    (∃ t, step (at0 0xF407) = .next t ∧ t.fault = none) ∧ fetch (at0 0xF407) = .ok 0xF407 ∧
    decodeWord .nibbleLow 0xF407 = .ok (.ldVxDt 4) ∧ ∀ x : Reg, decodeWord .nibbleLow 0xF407 ≠ .ok (.ldDtVx x) :=
  ⟨next_of_after (by decide +kernel), by decide +kernel, by decide, next_of_after (by decide +kernel), by decide +kernel,
    by decide, by decide⟩

theorem witness_PcTable : State.reset.fault = none ∧
    (∃ t, exec (.jpV0 0xFFF) State.reset = .next t ∧ t.fault = none) ∧
    (∃ t, exec (.skp 0) State.reset = .next t ∧ t.fault = none) ∧
    (∃ t, step (at0 0xBFFF) = .next t ∧ t.fault = none) ∧ fetch (at0 0xBFFF) = .ok 0xBFFF ∧
    decodeWord .nibbleLow 0xBFFF = .ok (.jpV0 0xFFF) ∧
    (∃ t, step (at0 0x8128) = .next t ∧ t.fault = none) ∧ fetch (at0 0x8128) = .ok 0x8128 ∧
    decodeWord .nibbleLow 0x8128 = .error (.undecoded8 0x8128) :=
  ⟨rfl, next_of_after (by decide +kernel), next_of_after (by decide +kernel), next_of_after (by decide +kernel),
    by decide +kernel, by decide, next_of_after (by decide +kernel), by decide +kernel, by decide⟩

theorem witness_FetchFault : (State.reset.setPc 0xFFF).fault = none ∧ (State.reset.setPc 0xFFF).pc.toNat > 0xFFE ∧
    (State.reset.setPc 0xFFFF).pc.toNat > 0xFFE := by decide

theorem witness_UndecodedWordIsNoFault : (at0 0xF0FF).fault = none ∧ fetch (at0 0xF0FF) = .ok 0xF0FF ∧
    decodeWord (at0 0xF0FF).params.secondaryDecode 0xF0FF = .error (.undecodedF 0xF0FF) := by decide +kernel

theorem witness_EveryCycleHasANextState : State.reset.fault = none := rfl

/-- Each kind of fault, and operations at the edge that raise none. -/
theorem witness_FaultTable :
    faultTable (.call 0) { State.reset with sp := 16 } = some (.stackOverflow, 16) ∧
    faultTable .ret State.reset = some (.stackUnderflow, 0) ∧
    faultTable (.drw 0 0 2) (State.reset.setIdx 0xFFF) = some (.memoryBounds, 0x1000) ∧
    faultTable (.stRegs 0) (State.reset.setIdx 0x04F) = some (.fontWrite, 0x04F) ∧
    faultTable (.skp 0) (regs [(0, 16)]) = some (.keyIndex, 16) ∧
    State.reset.fault = none ∧ faultTable (.drw 0 0 1) (State.reset.setIdx 0xFFF) = none ∧
    faultTable (.drw 0 0 0) (State.reset.setIdx 0xFFFF) = none ∧ faultTable (.stRegs 0) (State.reset.setIdx 0x050) = none ∧
    faultTable (.skp 0) (regs [(0, 15)]) = none := by decide

theorem witness_FaultsArePrecise : ∃ t, step (at0 0x00EE) = .next t ∧ t.fault ≠ none := next_of_after (by decide +kernel)

theorem witness_FaultedCoreIsTerminal :
    { State.reset with fault := some ⟨.keyIndex, 0x200, 16⟩ }.fault = some ⟨.keyIndex, 0x200, 16⟩ := rfl

theorem witness_OnlyNamedStateIsWritten :
    (∃ t, exec (.addReg 1 2) State.reset = .next t ∧ t.fault = none) ∧ writesReg (.addReg 1 2) 2 = false :=
  ⟨next_of_after (by decide +kernel), by decide⟩

theorem witness_TimerReadersAndWriters :
    (∃ t, exec (.ldVxDt 1) State.reset = .next t ∧ t.fault = none) ∧ (∀ x, Instr.ldVxDt 1 ≠ .ldStVx x) ∧
    (∀ x, Instr.ldVxDt 1 ≠ .ldDtVx x) ∧ (∃ t, step (at0 0x00EE) = .next t ∧ t.fault ≠ none) ∧
    Request.readAudio ≠ .step ∧ ∀ l, Request.readAudio ≠ .load l :=
  ⟨next_of_after (by decide +kernel), by decide, by decide, next_of_after (by decide +kernel), nofun, nofun⟩

theorem witness_DisplayIsApart :
    Instr.ldB 0 ≠ .cls ∧ (∀ x y n, Instr.ldB 0 ≠ .drw x y n) ∧
    ∃ t, exec (.ldB 0) (State.reset.setIdx 0x050) = .next t ∧ t.fault = none :=
  ⟨nofun, nofun, next_of_after (by decide +kernel)⟩

theorem witness_CallStackIsApart :
    Instr.jp 0 ≠ .ret ∧ (∀ a, Instr.jp 0 ≠ .call a) ∧ ∃ t, exec (.jp 0) State.reset = .next t ∧ t.fault = none :=
  ⟨nofun, nofun, next_of_after (by decide +kernel)⟩

/-- A step request; SKP and SKNP on key 15; LD Vx,K with key 15 pressed. -/
theorem witness_KeysAreTheHosts :
    (∀ keys, Request.step ≠ .setKeys keys) ∧ (∀ l, Request.step ≠ .load l) ∧
    (let s := placeWord (regs [(5, 15)]) 0xE59E
     s.fault = none ∧ fetch s = .ok 0xE59E ∧ decodeWord s.params.secondaryDecode 0xE59E = .ok (.skp 5) ∧
       (s.reg 5).toNat = (15 : Reg).val) ∧
    (let s := placeWord (regs [(6, 15)]) 0xE6A1
     s.fault = none ∧ fetch s = .ok 0xE6A1 ∧ decodeWord s.params.secondaryDecode 0xE6A1 = .ok (.sknp 6) ∧
       (s.reg 6).toNat = (15 : Reg).val) ∧
    (at0 0xF00A).fault = none ∧ fetch (at0 0xF00A) = .ok 0xF00A ∧
    decodeWord (at0 0xF00A).params.secondaryDecode 0xF00A = .ok (.ldVxK 0) ∧
    (press [3, 15] State.reset).keys[(15 : Reg)] = true ∧
    ∀ j : Reg, 15 < j → (press [3, 15] State.reset).keys[j] = false :=
  ⟨nofun, nofun, by decide +kernel, by decide +kernel, by decide +kernel⟩

theorem witness_RedrawIsSticky :
    (∃ t, step { at0 0x6005 with redraw := true } = .next t ∧ t.fault = none) ∧
    ∃ t, exec (.drw 0 0 0) State.reset = .next t ∧ t.redraw = true :=
  ⟨next_of_after (by decide +kernel), next_of_after (by decide +kernel)⟩

/-- A state with a byte listed at the first and the last writable address, about to store there. -/
def storing : State := placeWord (bytes 0xFFF [7] (bytes 0x050 [7] ((regs [(0, 0x11)]).setIdx 0x050))) 0xF055

theorem witness_MemCanonical : MemCanonical storing ∧ storing.mem.length = 4 := by decide +kernel
theorem witness_FontIntact : FontIntact storing := by unfold FontIntact; decide +kernel
theorem witness_PcBound : PcBound storing ∧ PcBound (State.reset.setPc 0x10FE) := by unfold PcBound; decide +kernel
theorem witness_InvariantsStep : ∃ t, step storing = .next t ∧ t.byteAt 0x050 = 0x11 := next_of_after (by decide +kernel)

theorem witness_CanonicalMemoryIsUnique :
    let m : Memory := [(0x050, 1), (0xFFF, 2)]
    Memory.wf Config.defaultFont m ∧ ∀ a, readMem Config.defaultFont m a = readMem Config.defaultFont m a :=
  ⟨by decide +kernel, fun _ => rfl⟩

theorem witness_LoadReplacesTheState :
    (List.replicate 3584 (0xAA : Byte)).length ≤ 3584 ∧ (List.replicate 3585 (0xAA : Byte)).length > 3584 ∧
    ([] : List Byte).length ≤ 3584 := by
  simp only [List.length_replicate, List.length_nil]; omega

theorem witness_PlacedWordIsFetched : 0xFFFF < 65536 ∧ (State.reset.setPc 0xFFE).pc.toNat ≤ 0xFFE := by decide

theorem witness_CallPushesItsAddress :
    State.reset.sp.val = (0 : Fin 16).val ∧ { State.reset with sp := 15 }.sp.val = (15 : Fin 16).val := by decide

theorem witness_RetPopsAndAddsTwo :
    { State.reset with sp := 1 }.sp.val = (0 : Fin 16).val + 1 ∧
    { State.reset with sp := 16 }.sp.val = (15 : Fin 16).val + 1 := by decide

theorem witness_CallThenRet :
    ∃ t, exec (.call 0x206) State.reset = .next t ∧ t.fault = none ∧ (t.setReg 3 9).stack = t.stack ∧ (t.setReg 3 9).sp = t.sp :=
  next_of_after (by decide +kernel)

theorem witness_SkipsOnKeys :
    ((regs [(4, 15)]).reg 4).toNat = (15 : Reg).val ∧ (State.reset.reg 4).toNat = (0 : Reg).val := by decide

theorem witness_ParkedStaysParked : Parked (at0 0x1200) :=
  ⟨rfl, 0x1200, by decide +kernel, by decide, by decide⟩

/-- The three clauses: no operand is VF, Y alone is VF, X is VF. -/
theorem witness_FlagOperations :
    flagInstrs.length = 5 ∧ (∃ op, op ∈ flagInstrs) ∧ (1 : Reg) ≠ vf ∧ (2 : Reg) ≠ vf ∧ (15 : Reg) = vf :=
  ⟨rfl, ⟨_, List.mem_cons_self⟩, by decide, by decide, rfl⟩

/-- No rows with I past memory, and rows up to the last byte. -/
theorem witness_DrwXorsTheSprite :
    ((0 : BitVec 4).toNat = 0 ∨ (State.reset.setIdx 0xFFFF).idx.toNat + (0 : BitVec 4).toNat ≤ 0x1000) ∧
    ((15 : BitVec 4).toNat = 0 ∨ (State.reset.setIdx 0xFF1).idx.toNat + (15 : BitVec 4).toNat ≤ 0x1000) := by decide

/-- A sprite at the last pixel, drawn and drawn again from the state the first DRW leaves. -/
theorem witness_DrwTwiceRestores :
    let s := bytes 0x300 [0xC0] ((regs [(1, 63), (2, 31)]).setIdx 0x300)
    s.fault = none ∧ ∃ t, exec (.drw 1 2 1) s = .next t ∧ t.fault = none ∧ t.idx = s.idx ∧
      (∀ r, r < (1 : BitVec 4).toNat → t.byteAt (s.idx.toNat + r) = s.byteAt (s.idx.toNat + r)) ∧
      t.reg 1 = s.reg 1 ∧ t.reg 2 = s.reg 2 ∧ after (exec (.drw 1 2 1) t) (fun v => v.fault = none) = true :=
  ⟨rfl, next_of_after (by decide +kernel)⟩

theorem witness_WaitForKey :
    (∀ k : Reg, State.reset.keys[k] = false) ∧
    (press [0] State.reset).keys[(0 : Reg)] = true ∧ (∀ j : Reg, 0 < j → (press [0] State.reset).keys[j] = false) ∧
    (press [3, 15] State.reset).keys[(15 : Reg)] = true ∧
    ∀ j : Reg, 15 < j → (press [3, 15] State.reset).keys[j] = false := by decide

theorem witness_KeyWaitLastsUntilAKey :
    (at0 0xF00A).fault = none ∧ fetch (at0 0xF00A) = .ok 0xF00A ∧
    decodeWord (at0 0xF00A).params.secondaryDecode 0xF00A = .ok (.ldVxK 0) ∧
    (∀ k : Reg, (at0 0xF00A).keys[k] = false) ∧
    (press [3, 9] State.reset).keys[(9 : Reg)] = true ∧
    ∀ j : Reg, 9 < j → (press [3, 9] State.reset).keys[j] = false := by decide +kernel

theorem witness_LoadIndex : 0xFFF < 0x1000 := by decide

theorem witness_DecimalDigits :
    (0x050 ≤ (State.reset.setIdx 0x050).idx.toNat ∧ (State.reset.setIdx 0x050).idx.toNat + 2 ≤ 0xFFF) ∧
    (0x050 ≤ (State.reset.setIdx 0xFFD).idx.toNat ∧ (State.reset.setIdx 0xFFD).idx.toNat + 2 ≤ 0xFFF) := by decide

theorem witness_StoreRegisters :
    (0x050 ≤ (State.reset.setIdx 0x050).idx.toNat ∧ (State.reset.setIdx 0x050).idx.toNat + (15 : Reg).val ≤ 0xFFF) ∧
    (0x050 ≤ (State.reset.setIdx 0xFFF).idx.toNat ∧ (State.reset.setIdx 0xFFF).idx.toNat + (0 : Reg).val ≤ 0xFFF) := by
  decide

theorem witness_LoadRegisters :
    State.reset.idx.toNat + (15 : Reg).val ≤ 0xFFF ∧ (State.reset.setIdx 0xFF0).idx.toNat + (15 : Reg).val ≤ 0xFFF := by
  decide

theorem witness_StoreThenLoadRestores :
    let s := (regs [(0, 1), (1, 2)]).setIdx 0x050
    s.fault = none ∧ ∃ t, exec (.stRegs 1) s = .next t ∧ t.fault = none ∧ (t.setReg 0 9).mem = t.mem ∧
      (t.setReg 0 9).params = t.params ∧ (t.setReg 0 9).idx = t.idx :=
  ⟨rfl, next_of_after (by decide +kernel)⟩

theorem witness_StoreIsSeenByTheFetch :
    let s := (regs [(0, 0x12), (1, 0x08)]).setIdx 0xFFE
    s.fault = none ∧ (∃ t, exec (.stRegs 1) s = .next t ∧ t.fault = none) ∧ (1 : Reg).val = (0 : Reg).val + 1 ∧ (1 : Reg) ≤ 1 :=
  ⟨rfl, next_of_after (by decide +kernel), rfl, by decide⟩

end Sys2Proof.Machine.Tests
end

/-! PROOFS. The state family (spec/10_state.md): what an operation writes, what it does not read, and DRW. -/

namespace Sys2Proof.Machine

/-! ## Frames -/

/-- A frame, piece by piece: each one is named as written or is unchanged. -/
theorem frameBut_iff {w : List Component} {s t : State} : FrameBut w s t ↔ ∀ c, c ∈ w ∨ Unchanged c s t :=
  forall_congr' fun _ => or_iff_not_imp_left.symm

theorem FrameBut.mono {w w' : List Component} {s t : State} (h : FrameBut w s t) (sub : w ⊆ w') : FrameBut w' s t :=
  fun c hc => h c fun hw => hc (sub hw)

/-! ## Operations that may fail, in one form -/

section
variable (s : State) (x y : Reg)

theorem execSkp_eq : execSkp x s = orRaise s ((keyAt s (s.reg x)).map s.skipIf) := by
  unfold execSkp
  cases keyAt s (s.reg x) <;> rfl

theorem execSknp_eq : execSknp x s = orRaise s ((keyAt s (s.reg x)).map fun pressed => s.skipIf !pressed) := by
  unfold execSknp
  cases keyAt s (s.reg x) <;> rfl

theorem execDrw_eq (n : BitVec 4) :
    execDrw x y n s = orRaise s ((readBlock s s.idx.toNat n.toNat).map fun rows => drawRows x y rows s) := by
  unfold execDrw
  cases readBlock s s.idx.toNat n.toNat <;> rfl

theorem execLdB_eq :
    execLdB x s = orRaise s ((writeBlock s s.idx.toNat (digits (s.reg x))).map State.advance) := by
  unfold execLdB
  cases writeBlock s s.idx.toNat (digits (s.reg x)) <;> rfl

theorem execStRegs_eq :
    execStRegs x s = orRaise s ((writeBlock s s.idx.toNat (regsUpTo s x)).map State.advance) := by
  unfold execStRegs
  cases writeBlock s s.idx.toNat (regsUpTo s x) <;> rfl

theorem execLdRegs_eq :
    execLdRegs x s = orRaise s ((readBlock s s.idx.toNat (x.val + 1)).map fun bytes =>
      { s.advance with v := fillRegs s.v 0 bytes }) := by
  unfold execLdRegs
  cases readBlock s s.idx.toNat (x.val + 1) <;> rfl

/-! The stack operations and the key wait, case by case. -/

theorem execRet_underflow (h : s.sp.val = 0) : execRet s = raise ⟨.stackUnderflow, s.sp.val⟩ s := dif_pos h

theorem execRet_pop (h : s.sp.val ≠ 0) :
    execRet s = .next { s with
      sp := (⟨s.sp.val - 1, by omega⟩ : Fin 16).castSucc, pc := s.stack[s.sp.val - 1]'(by omega) + 2 } :=
  dif_neg h

theorem execCall_overflow (addr : Word) (h : s.sp.val = 16) :
    execCall addr s = raise ⟨.stackOverflow, s.sp.val⟩ s := dif_pos h

theorem execCall_push (addr : Word) (h : s.sp.val ≠ 16) :
    execCall addr s = .next { s with
      stack := s.stack.set s.sp.val s.pc (by omega), sp := (⟨s.sp.val, by omega⟩ : Fin 16).succ, pc := addr } :=
  dif_neg h

theorem execLdVxK_wait (h : scanKeys s.keys = none) : execLdVxK x s = .next s := by
  rw [execLdVxK, h]

theorem execLdVxK_found (k : Reg) (h : scanKeys s.keys = some k) :
    execLdVxK x s = .next (s.setReg x (BitVec.ofNat 8 k.val)).advance := by
  rw [execLdVxK, h]

end

/-- An operation that may fail raises the fault, or completes with what its access gave. -/
theorem orRaise_map_cases {α : Type} {r : Except Trap α} {f : α → State} {s t : State}
    (h : orRaise s (r.map f) = .next t) : (∃ e, raise e s = .next t) ∨ ∃ a, r = .ok a ∧ t = f a := by
  cases r with
  | error e => exact .inl ⟨e, h⟩
  | ok a => cases h; exact .inr ⟨a, rfl, rfl⟩

/-! ## What an operation writes (spec/10_state.md R22, R24, R25, R30, R35, R37, R40–R42) -/

/-- From `s` to `t` no piece and no register but those named for `i` is written. -/
def WritesOnly (i : Instr) (s t : State) : Prop :=
  FrameBut (writes i) s t ∧ ∀ r, writesReg i r = false → t.reg r = s.reg r

section
variable {i : Instr} {x : Reg} (s : State)

theorem frameBut_pc (p : Word) : FrameBut [.pc] s (s.setPc p) :=
  frameBut_iff.2 fun c => by cases c <;> simp [Unchanged]

theorem frameBut_pc_regs (v : Vector Byte 16) (p : Word) : FrameBut [.pc, .regs] s { s with v := v, pc := p } :=
  frameBut_iff.2 fun c => by cases c <;> simp [Unchanged, State.byteAt]

theorem frameBut_pc_idx (p a : Word) : FrameBut [.pc, .idx] s ((s.setIdx a).setPc p) :=
  frameBut_iff.2 fun c => by cases c <;> simp [Unchanged]

theorem frameBut_addIndex : FrameBut [.pc, .regs, .idx] s (addIndex x s) :=
  frameBut_iff.2 fun c => by cases c <;> simp [Unchanged]

theorem frameBut_loaderWrite (a : Nat) (bs : List Byte) : FrameBut [.pc, .mem] s (loaderWrite s a bs).advance :=
  frameBut_iff.2 fun c => by cases c <;> simp [Unchanged]

theorem frameBut_drawRows (x y : Reg) (rows : List Byte) :
    FrameBut [.pc, .regs, .disp, .redraw] s (drawRows x y rows s) :=
  frameBut_iff.2 fun c => by cases c <;> simp [Unchanged, drawRows, State.byteAt]

theorem frameBut_cls : FrameBut [.pc, .disp, .redraw] s { s.advance with disp := 0, redraw := true } :=
  frameBut_iff.2 fun c => by cases c <;> simp [Unchanged, State.byteAt, State.reg]

theorem frameBut_ret (k : Fin 17) (p : Word) : FrameBut [.pc, .sp] s { s with sp := k, pc := p } :=
  frameBut_iff.2 fun c => by cases c <;> simp [Unchanged, State.byteAt, State.reg]

theorem frameBut_call (slots : Vector Word 16) (k : Fin 17) (p : Word) :
    FrameBut [.pc, .stack, .sp] s { s with stack := slots, sp := k, pc := p } :=
  frameBut_iff.2 fun c => by cases c <;> simp [Unchanged, State.byteAt, State.reg]

theorem frameBut_setReg_draws (b : Byte) (n : Nat) :
    FrameBut [.pc, .regs, .draws] s { (s.setReg x b).advance with draws := n } :=
  frameBut_iff.2 fun c => by cases c <;> simp [Unchanged, State.byteAt]

theorem frameBut_setDt (b : Byte) : FrameBut [.pc, .dt] s (s.setDt b).advance :=
  frameBut_iff.2 fun c => by cases c <;> simp [Unchanged]

theorem frameBut_setSt (b : Byte) : FrameBut [.pc, .st] s (s.setSt b).advance :=
  frameBut_iff.2 fun c => by cases c <;> simp [Unchanged]

/-! Each shape of a completed operation, under the tables of the operations that have it. -/

theorem writesOnly_of_regs {t : State} (frame : FrameBut (writes i) s t) (regs : Component.regs ∉ writes i) :
    WritesOnly i s t :=
  ⟨frame, fun r _ => frame .regs regs r⟩

theorem writesOnly_setPc (hw : writes i = [.pc]) (p : Word) : WritesOnly i s (s.setPc p) :=
  writesOnly_of_regs s (hw ▸ frameBut_pc s p) (by simp [hw])

theorem writesOnly_setIdx (hw : writes i = [.pc, .idx]) (a : Word) : WritesOnly i s (s.setIdx a).advance :=
  writesOnly_of_regs s (hw ▸ frameBut_pc_idx s (s.pc + 2) a) (by simp [hw])

theorem writesOnly_loaderWrite (hw : writes i = [.pc, .mem]) (a : Nat) (bs : List Byte) :
    WritesOnly i s (loaderWrite s a bs).advance :=
  writesOnly_of_regs s (hw ▸ frameBut_loaderWrite s a bs) (by simp [hw])

theorem writesOnly_setReg (hw : writes i = [.pc, .regs]) (hr : writesReg i x = true) (b : Byte) :
    WritesOnly i s (s.setReg x b).advance := by
  refine ⟨hw ▸ frameBut_pc_regs s _ _, fun r h => ?_⟩
  have ne : r ≠ x := by rintro rfl; simp [hr] at h
  exact setReg_reg_ne s x r b ne

theorem writesOnly_flagOp (hw : writes i = [.pc, .regs]) (hx : writesReg i x = true) (hf : writesReg i vf = true)
    (y : Reg) (f g : Byte → Byte → Byte) : WritesOnly i s (flagOp x y f g s) := by
  refine ⟨hw ▸ flagOp_eq s x y f g ▸ frameBut_pc_regs s _ _, fun r h => ?_⟩
  have ne_x : r ≠ x := by rintro rfl; simp [hx] at h
  have ne_vf : r ≠ vf := by rintro rfl; simp [hf] at h
  exact flagOp_reg_other s x y r f g ne_x ne_vf

/-- LD Vx,[I] writes V0..VX. -/
theorem writesOnly_fillRegs (bytes : List Byte) (hn : bytes.length = x.val + 1) :
    WritesOnly (.ldRegs x) s { s.advance with v := fillRegs s.v 0 bytes } := by
  refine ⟨frameBut_pc_regs s _ _, fun r h => ?_⟩
  have above : ¬ r ≤ x := by simpa [writesReg] using h
  have out : ¬ (0 ≤ r.val ∧ r.val < 0 + bytes.length) := by
    rw [Fin.le_def] at above
    omega
  exact (fillRegs_getElem s.v 0 bytes r.val r.isLt).trans (dif_neg out)

theorem drawRows_reg (x y : Reg) (rows : List Byte) (r : Reg) (h : r ≠ vf) :
    (drawRows x y rows s).reg r = s.reg r :=
  setReg_reg_ne s vf r _ h

theorem writesOnly_drawRows (x y : Reg) (n : BitVec 4) (rows : List Byte) :
    WritesOnly (.drw x y n) s (drawRows x y rows s) :=
  ⟨frameBut_drawRows s x y rows, fun r h => drawRows_reg s x y rows r (by simpa [writesReg] using h)⟩

/-- RND writes its register and takes a draw. -/
theorem writesOnly_setReg_draws (x : Reg) (nn b : Byte) (n : Nat) :
    WritesOnly (.rnd x nn) s { (s.setReg x b).advance with draws := n } :=
  ⟨frameBut_setReg_draws s b n, fun r h => setReg_reg_ne s x r b (by simpa [writesReg] using h)⟩

theorem writesOnly_addIndex : WritesOnly (.addI x) s (addIndex x s) :=
  ⟨frameBut_addIndex s, fun r h => by
    have ne : r ≠ vf := by simpa [writesReg] using h
    rw [addIndex_reg, if_neg ne]⟩

theorem writesOnly_refl : WritesOnly i s s :=
  ⟨fun c _ => by cases c <;> simp [Unchanged], fun _ _ => rfl⟩

end

theorem readBlock_length (s : State) (a n : Nat) (bytes : List Byte) (h : readBlock s a n = .ok bytes) :
    bytes.length = n := by
  by_cases fits : n = 0 ∨ a + n ≤ 0x1000
  · rw [readBlock_ok s a n fits] at h
    cases h
    simp
  · rw [readBlock_bounds s a n (by omega) (by omega)] at h
    cases h

/-- Everything an operation can do: it raises a fault, which writes the record alone (spec/60_exceptions.md R262), or it
completes and writes only what the tables name. -/
theorem exec_cases {i : Instr} {s t : State} (h : exec i s = .next t) :
    (∃ e, raise e s = .next t) ∨ WritesOnly i s t := by
  cases i with
  | jp | seByte | sneByte | seReg | sneReg | jpV0 => cases h; exact .inr (writesOnly_setPc s rfl _)
  | ldByte | addByte | ldReg | orReg | andReg | xorReg | ldVxDt =>
    cases h; exact .inr (writesOnly_setReg s rfl (beq_self_eq_true _) _)
  | addReg | subReg | shr | subnReg | shl =>
    cases h; exact .inr (writesOnly_flagOp s rfl (by simp [writesReg]) (by simp [writesReg]) _ _ _)
  | ldI | ldF => cases h; exact .inr (writesOnly_setIdx s rfl _)
  | addI => cases h; exact .inr (writesOnly_addIndex s)
  | cls => cases h; exact .inr (writesOnly_of_regs s (frameBut_cls s) (by simp [writes]))
  | rnd => cases h; exact .inr (writesOnly_setReg_draws s _ _ _ _)
  | ldDtVx => cases h; exact .inr (writesOnly_of_regs s (frameBut_setDt s _) (by simp [writes]))
  | ldStVx => cases h; exact .inr (writesOnly_of_regs s (frameBut_setSt s _) (by simp [writes]))
  | ret =>
    by_cases hsp : s.sp.val = 0
    · rw [exec, execRet_underflow s hsp] at h
      exact .inl ⟨_, h⟩
    · rw [exec, execRet_pop s hsp] at h
      cases h; exact .inr (writesOnly_of_regs s (frameBut_ret s _ _) (by simp [writes]))
  | call addr =>
    by_cases hsp : s.sp.val = 16
    · rw [exec, execCall_overflow s addr hsp] at h
      exact .inl ⟨_, h⟩
    · rw [exec, execCall_push s addr hsp] at h
      cases h; exact .inr (writesOnly_of_regs s (frameBut_call s _ _ _) (by simp [writes]))
  | ldVxK x =>
    cases hk : scanKeys s.keys with
    | none =>
      rw [exec, execLdVxK_wait s x hk] at h
      cases h; exact .inr (writesOnly_refl s)
    | some k =>
      rw [exec, execLdVxK_found s x k hk] at h
      cases h; exact .inr (writesOnly_setReg s rfl (beq_self_eq_true _) _)
  | skp | sknp =>
    simp only [exec, execSkp_eq, execSknp_eq] at h
    obtain fails | ⟨_, -, rfl⟩ := orRaise_map_cases h
    · exact .inl fails
    · exact .inr (writesOnly_setPc s rfl _)
  | drw =>
    rw [exec, execDrw_eq] at h
    obtain fails | ⟨rows, -, rfl⟩ := orRaise_map_cases h
    · exact .inl fails
    · exact .inr (writesOnly_drawRows s _ _ _ rows)
  | ldB | stRegs =>
    simp only [exec, execLdB_eq, execStRegs_eq] at h
    obtain fails | ⟨u, hu, rfl⟩ := orRaise_map_cases h
    · exact .inl fails
    · obtain ⟨rfl, -⟩ := writeBlock_cases s u _ _ hu
      exact .inr (writesOnly_loaderWrite s rfl _ _)
  | ldRegs =>
    rw [exec, execLdRegs_eq] at h
    obtain fails | ⟨bytes, hb, rfl⟩ := orRaise_map_cases h
    · exact .inl fails
    · exact .inr (writesOnly_fillRegs s bytes (readBlock_length s _ _ bytes hb))

/-- Raising a fault writes the record alone (spec/60_exceptions.md R262). -/
theorem frameBut_raise {e : Trap} {s t : State} (h : raise e s = .next t) : FrameBut [.fault] s t := by
  cases h
  exact frameBut_iff.2 fun c => by cases c <;> simp [Unchanged, State.byteAt, State.reg]

/-- Settles O20, by the two ways an operation can end: a raised fault writes the record alone, a completed operation what
its tables name. -/
theorem onlyNamedStateIsWritten : Obligations.OnlyNamedStateIsWritten := by
  intro i s t h
  obtain ⟨e, fails⟩ | ⟨frame, regs⟩ := exec_cases h
  · have frame := frameBut_raise fails
    exact ⟨frame.mono (by simp), fun r _ => frame .regs (by simp) r⟩
  · exact ⟨frame.mono (List.subset_cons_self _ _), regs⟩

/-! ## Noninterference: the display and the sound timer (spec/10_state.md R35, R39) -/

/-- `s` with another display and another sound timer, the two pieces that no operation but CLS, DRW and LD ST,Vx reads or
writes: comparing a run on `s` with one on its overlay says that neither is read. -/
def State.overlay (s : State) (d : Display) (b : Byte) : State := { s with disp := d, st := b }

section
variable (s : State) (d : Display) (b : Byte)

theorem setSt_eq_overlay : s.setSt b = s.overlay s.disp b := rfl
theorem withDisp_eq_overlay : { s with disp := d } = s.overlay d s.st := rfl

@[simp] theorem overlay_params : (s.overlay d b).params = s.params := rfl
@[simp] theorem overlay_reg (r : Reg) : (s.overlay d b).reg r = s.reg r := rfl

/-- Block accesses read and write memory and the parameters alone. -/
theorem readBlock_overlay (a n : Nat) : readBlock (s.overlay d b) a n = readBlock s a n := by
  induction n generalizing a with
  | zero => rfl
  | succ n ih => simp only [readBlock, ih (a + 1)]; rfl

theorem memWrite_overlay (a : Nat) (c : Byte) :
    memWrite (s.overlay d b) a c = (memWrite s a c).map fun u => u.overlay d b := by
  unfold memWrite
  split
  · rfl
  · split <;> rfl

theorem writeBlock_overlay (f : State → State) (a : Nat) (bs : List Byte) :
    (writeBlock (s.overlay d b) a bs).map f = (writeBlock s a bs).map fun u => f (u.overlay d b) := by
  induction bs generalizing s a with
  | nil => rfl
  | cons c cs ih =>
    simp only [writeBlock, memWrite_overlay]
    cases memWrite s a c with
    | error e => rfl
    | ok u => exact ih u (a + 1)

theorem flagOp_overlay (x y : Reg) (f g : Byte → Byte → Byte) :
    flagOp x y f g (s.overlay d b) = (flagOp x y f g s).overlay d b := by
  simp only [flagOp, overlay_params]
  cases s.params.vfAlias <;> rfl

theorem addIndex_overlay (x : Reg) : addIndex x (s.overlay d b) = (addIndex x s).overlay d b := by
  simp only [addIndex, overlay_params]
  cases s.params.vfAlias <;> rfl

/-- A change `g` of the state that raising a fault commutes with, the access does not depend on and the completion
commutes with, the operation commutes with too. -/
theorem orRaise_map_comm {α : Type} {r : Except Trap α} {f f' : α → State} {s t : State} (g : State → State)
    (hraise : ∀ e, raise e (g s) = .next (g { s with fault := some ⟨e.kind, s.pc, e.addr⟩ }))
    (hf : ∀ a, f' a = g (f a)) (h : orRaise s (r.map f) = .next t) : orRaise (g s) (r.map f') = .next (g t) := by
  cases r with
  | error e => cases h; exact hraise e
  | ok a => cases h; exact congrArg _ (hf a)

/-- Besides CLS, DRW and LD ST,Vx no operation reads or writes the display or the sound timer. -/
theorem exec_overlay {i : Instr} {s t : State} (hcls : i ≠ .cls) (hdrw : ∀ x y n, i ≠ .drw x y n)
    (hst : ∀ x, i ≠ .ldStVx x) (h : exec i s = .next t) : exec i (s.overlay d b) = .next (t.overlay d b) := by
  cases i with
  | cls => exact absurd rfl hcls
  | drw x y n => exact absurd rfl (hdrw x y n)
  | ldStVx x => exact absurd rfl (hst x)
  | jp | seByte | sneByte | seReg | sneReg | jpV0 | ldByte | addByte | ldReg | orReg | andReg | xorReg | ldVxDt | ldI
  | ldF | rnd | ldDtVx => cases h; rfl
  | addReg | subReg | shr | subnReg | shl => cases h; exact congrArg _ (flagOp_overlay s d b _ _ _ _)
  | addI => cases h; exact congrArg _ (addIndex_overlay s d b _)
  | ret =>
    by_cases hsp : s.sp.val = 0
    · rw [exec, execRet_underflow s hsp] at h
      cases h; exact execRet_underflow (s.overlay d b) hsp
    · rw [exec, execRet_pop s hsp] at h
      cases h; exact execRet_pop (s.overlay d b) hsp
  | call addr =>
    by_cases hsp : s.sp.val = 16
    · rw [exec, execCall_overflow s addr hsp] at h
      cases h; exact execCall_overflow (s.overlay d b) addr hsp
    · rw [exec, execCall_push s addr hsp] at h
      cases h; exact execCall_push (s.overlay d b) addr hsp
  | skp | sknp =>
    simp only [exec, execSkp_eq, execSknp_eq] at h ⊢
    exact orRaise_map_comm (·.overlay d b) (fun _ => rfl) (fun _ => rfl) h
  | ldVxK x =>
    cases hk : scanKeys s.keys with
    | none =>
      rw [exec, execLdVxK_wait s x hk] at h
      cases h; exact execLdVxK_wait (s.overlay d b) x hk
    | some k =>
      rw [exec, execLdVxK_found s x k hk] at h
      cases h; exact execLdVxK_found (s.overlay d b) x k hk
  | ldB | stRegs =>
    simp only [exec, execLdB_eq, execStRegs_eq, writeBlock_overlay] at h ⊢
    exact orRaise_map_comm (·.overlay d b) (fun _ => rfl) (fun _ => rfl) h
  | ldRegs =>
    simp only [exec, execLdRegs_eq, readBlock_overlay] at h ⊢
    exact orRaise_map_comm (·.overlay d b) (fun _ => rfl) (fun _ => rfl) h

/-- DRW reads the display, but not the sound timer. -/
theorem execDrw_setSt {s t : State} (x y : Reg) (n : BitVec 4) (h : execDrw x y n s = .next t) :
    execDrw x y n (s.setSt b) = .next (t.setSt b) := by
  have rows_eq : readBlock (s.setSt b) s.idx.toNat n.toNat = readBlock s s.idx.toNat n.toNat :=
    readBlock_overlay s s.disp b _ _
  rw [execDrw_eq] at h ⊢
  rw [setSt_idx, rows_eq]
  exact orRaise_map_comm (·.setSt b) (fun _ => rfl) (fun _ => rfl) h

end

/-! ## The writers of the timers and the display (spec/10_state.md R35, R39) -/

/-- LD ST,Vx alone names the sound timer. -/
theorem st_mem_writes {i : Instr} (h : .st ∈ writes i) : ∃ x, i = .ldStVx x := by
  cases i <;> simp [writes] at h ⊢

/-- LD DT,Vx alone names the delay timer. -/
theorem dt_mem_writes {i : Instr} (h : .dt ∈ writes i) : ∃ x, i = .ldDtVx x := by
  cases i <;> simp [writes] at h ⊢

/-- CLS and DRW alone name the display. -/
theorem disp_mem_writes {i : Instr} (h : .disp ∈ writes i) : i = .cls ∨ ∃ x y n, i = .drw x y n := by
  cases i <;> simp [writes] at h ⊢

/-- A piece that `i` does not name, other than the fault record, is unchanged. -/
theorem exec_unchanged {i : Instr} {s t : State} (h : exec i s = .next t) (c : Component) (hf : c ≠ .fault)
    (hw : c ∉ writes i) : Unchanged c s t :=
  (onlyNamedStateIsWritten i s t h).1 c (by simp [hf, hw])

theorem exec_st {i : Instr} {s t : State} (h : exec i s = .next t) (hst : ∀ x, i ≠ .ldStVx x) : t.st = s.st :=
  exec_unchanged h .st (by decide) fun hw => (st_mem_writes hw).elim hst

theorem exec_dt {i : Instr} {s t : State} (h : exec i s = .next t) (hdt : ∀ x, i ≠ .ldDtVx x) : t.dt = s.dt :=
  exec_unchanged h .dt (by decide) fun hw => (dt_mem_writes hw).elim hdt

theorem exec_disp {i : Instr} {s t : State} (h : exec i s = .next t) (hcls : i ≠ .cls)
    (hdrw : ∀ x y n, i ≠ .drw x y n) : t.disp = s.disp :=
  exec_unchanged h .disp (by decide) fun hw =>
    (disp_mem_writes hw).elim hcls fun ⟨x, y, n, e⟩ => hdrw x y n e

/-- No operation names the fault record: raising a fault alone writes it. -/
theorem fault_notMem_writes (i : Instr) : .fault ∉ writes i := by
  cases i <;> simp [writes]

/-- A cycle that ends faulted has raised a fault (spec/60_exceptions.md R262). -/
theorem step_faulting {s t : State} (h : step s = .next t) (hf : t.fault ≠ none) : ∃ e, raise e s = .next t := by
  obtain ⟨no_fault, ⟨e, -, he⟩ | ⟨w, i, -, -, hi⟩ | ⟨w, e, -, -, rfl⟩⟩ := step_cases s t h
  · exact ⟨e, he⟩
  · obtain ⟨u, hu, ⟨-, rfl⟩ | ⟨hnone, rfl⟩⟩ := endCycle_cases t _ hi
    · obtain fails | ⟨frame, -⟩ := exec_cases hu
      · exact fails
      · have kept : t.fault = s.fault := frame .fault (fault_notMem_writes i)
        exact absurd (kept.trans no_fault) hf
    · exact absurd hnone hf
  · exact absurd no_fault hf

/-! ## Who reads and writes the timers and the display -/

/-- No operation but LD ST,Vx reads or writes the sound timer. -/
theorem exec_setSt {i : Instr} {s t : State} (b : Byte) (hst : ∀ x, i ≠ .ldStVx x) (h : exec i s = .next t) :
    exec i (s.setSt b) = .next (t.setSt b) := by
  by_cases hcls : i = .cls
  · subst hcls; cases h; rfl
  by_cases hdrw : ∃ x y n, i = .drw x y n
  · obtain ⟨x, y, n, rfl⟩ := hdrw
    exact execDrw_setSt b x y n h
  have not_drw : ∀ x y n, i ≠ .drw x y n := fun x y n e => hdrw ⟨x, y, n, e⟩
  have kept : t.disp = s.disp := exec_disp h hcls not_drw
  rw [setSt_eq_overlay s, setSt_eq_overlay t, kept]
  exact exec_overlay s.disp b hcls not_drw hst h

/-- No operation but CLS and DRW reads or writes the display. -/
theorem exec_withDisp {i : Instr} {s t : State} (d : Display) (hcls : i ≠ .cls) (hdrw : ∀ x y n, i ≠ .drw x y n)
    (h : exec i s = .next t) : exec i { s with disp := d } = .next { t with disp := d } := by
  by_cases hst : ∃ x, i = .ldStVx x
  · obtain ⟨x, rfl⟩ := hst
    cases h; rfl
  have not_st : ∀ x, i ≠ .ldStVx x := fun x e => hst ⟨x, e⟩
  have kept : t.st = s.st := exec_st h not_st
  rw [withDisp_eq_overlay s, withDisp_eq_overlay t, kept]
  exact exec_overlay d s.st hcls hdrw not_st h

/-- Settles O21, by the frame of every operation, the overlay of the sound timer, and the shape of a faulting cycle. -/
theorem timerReadersAndWriters : Obligations.TimerReadersAndWriters := by
  refine ⟨fun i s t b h => ⟨fun hst => ⟨exec_st h hst, exec_setSt b hst h⟩, exec_dt h⟩, fun s x b => ?_,
    fun s => ⟨undecoded_st s, undecoded_dt s⟩, fun s t h hf => ?_, fun s r hstep hload => ?_⟩
  · exact ⟨⟨_, rfl, rfl, rfl⟩, ⟨_, rfl, rfl⟩, ⟨_, rfl, setReg_reg_same s x s.dt⟩⟩
  · obtain ⟨e, he⟩ := step_faulting h hf
    have frame := frameBut_raise he
    exact ⟨frame .st (by simp), frame .dt (by simp)⟩
  · cases r with
    | step => exact absurd rfl hstep
    | load bytes => exact absurd rfl (hload bytes)
    | setKeys | readPixels | readRedraw | clearRedraw | readAudio | readFault => exact ⟨rfl, rfl⟩

/-- Settles O22: memory is read and written beside the display, and only CLS and DRW name or read it. -/
theorem displayIsApart : Obligations.DisplayIsApart :=
  ⟨fun s _ a b => ⟨rfl, setByte_disp s a b⟩, fun _ _ _ d hcls hdrw h =>
    ⟨exec_disp h hcls hdrw, exec_withDisp d hcls hdrw h⟩⟩

/-! ## DRW (spec/43_display.md R201–R204, R206) -/

/-- The cell of a pixel on the display. -/
def pixelCell (px py : Nat) (hx : px < 64) (hy : py < 32) : Fin 2048 := ⟨px + py * 64, by omega⟩

/-- The cells under a sprite are the pixels it covers. -/
theorem pixelCell_mem_spriteCells {x y n px py : Nat} (row : Nat → Byte) (hn : n ≤ 32) (hx : px < 64)
    (hy : py < 32) :
    pixelCell px py hx hy ∈ spriteCells x y ((List.range n).map row) ↔ spriteCovers x y n row px py = true := by
  simp only [mem_spriteCells, spriteCovers, Bool.and_eq_true, decide_eq_true_eq, List.length_map, List.length_range,
    List.getElem_map, List.getElem_range]
  constructor
  · rintro ⟨r, hr, c, hc, bit, e⟩
    have cell := congrArg Fin.val e
    simp only [cellAt, pixelCell] at cell
    have col : (px + (64 - x % 64)) % 64 = c := by omega
    have line : (py + (32 - y % 32)) % 32 = r := by omega
    rw [col, line]
    exact ⟨⟨hc, hr⟩, bit⟩
  · rintro ⟨⟨hc, hr⟩, bit⟩
    refine ⟨_, hr, _, hc, bit, Fin.ext ?_⟩
    simp only [cellAt, pixelCell]
    omega

/-- Every cell is that of a pixel. -/
theorem exists_pixelCell (i : Fin 2048) : ∃ px py, ∃ hx : px < 64, ∃ hy : py < 32, pixelCell px py hx hy = i :=
  ⟨i.val % 64, i.val / 64, by omega, by omega, Fin.ext (by simp only [pixelCell]; omega)⟩

section
variable (d : Display) (x y n : Nat) (row : Nat → Byte)

theorem spriteCells_range_nodup (hn : n ≤ 32) : (spriteCells x y ((List.range n).map row)).Nodup :=
  spriteCells_nodup x y _ (by simpa using hn)

/-- A blit XORs each pixel with whether the sprite covers it. -/
theorem blit_pixel (hn : n ≤ 32) {px py : Nat} (hx : px < 64) (hy : py < 32) :
    (blit d (spriteCells x y ((List.range n).map row))).1.getLsbD (px + py * 64) =
      (d.getLsbD (px + py * 64) ^^ spriteCovers x y n row px py) := by
  have toggled := (blit_spec d _ (spriteCells_range_nodup x y n row hn)).1 (pixelCell px py hx hy)
  simp only [pixelCell_mem_spriteCells row hn hx hy, Bool.decide_eq_true] at toggled
  exact toggled

/-- A blit collides exactly when the sprite covers a lit pixel. -/
theorem blit_collides (hn : n ≤ 32) :
    (blit d (spriteCells x y ((List.range n).map row))).2 = true ↔
      ∃ px py, px < 64 ∧ py < 32 ∧ spriteCovers x y n row px py = true ∧ d.getLsbD (px + py * 64) = true := by
  rw [(blit_spec d _ (spriteCells_range_nodup x y n row hn)).2, List.any_eq_true]
  constructor
  · rintro ⟨i, hi, lit⟩
    obtain ⟨px, py, hx, hy, rfl⟩ := exists_pixelCell i
    exact ⟨px, py, hx, hy, (pixelCell_mem_spriteCells row hn hx hy).1 hi, lit⟩
  · rintro ⟨px, py, hx, hy, covered, lit⟩
    exact ⟨pixelCell px py hx hy, (pixelCell_mem_spriteCells row hn hx hy).2 covered, lit⟩

end

/-- DRW completes when its rows lie in memory, or when it has none. -/
theorem execDrw_ok (s : State) (x y : Reg) (n : BitVec 4) (h : n.toNat = 0 ∨ s.idx.toNat + n.toNat ≤ 0x1000) :
    execDrw x y n s =
      .next (drawRows x y ((List.range n.toNat).map fun r => s.byteAt (s.idx.toNat + r)) s) := by
  rw [execDrw_eq, readBlock_ok s _ _ h]; rfl

/-- VF says whether a lit cell was toggled (R203). -/
theorem drawRows_vf (s : State) (x y : Reg) (rows : List Byte) :
    (drawRows x y rows s).reg vf =
      flagByte (blit s.disp (spriteCells (s.reg x).toNat (s.reg y).toNat rows)).2 :=
  setReg_reg_same s vf _

/-- Settles O48: the pixels and the collision of the blit, and the frame of DRW. -/
theorem drwXorsTheSprite : Obligations.DrwXorsTheSprite := by
  intro s x y n hmem covers collides
  have hn : n.toNat ≤ 32 := by omega
  have collision := blit_collides s.disp (s.reg x).toNat (s.reg y).toNat n.toNat
    (fun r => s.byteAt (s.idx.toNat + r)) hn
  refine ⟨_, execDrw_ok s x y n hmem, fun px py hx hy => blit_pixel _ _ _ _ _ hn hx hy, fun lit => ?_, fun dark => ?_,
    rfl, rfl, fun r hr => drawRows_reg s x y _ r (by simpa using hr), frameBut_drawRows s x y _⟩
  · rw [drawRows_vf, collision.2 lit]; rfl
  · rw [drawRows_vf, Bool.eq_false_iff.2 (mt collision.1 dark)]; rfl

end Sys2Proof.Machine

/-! PROOFS. The memory family (spec/20_memory.md): the canonical form of memory, and what the fetch reads. -/

namespace Sys2Proof.Machine

/-! ## What an operation and a cycle do to memory -/

/-- From `s` to `t` the parameters are kept, and the memory list is kept or has one block written, which starts at I and
lies above the font and inside memory. -/
def MemKeptOrBlock (s t : State) : Prop :=
  t.params = s.params ∧
  (t.mem = s.mem ∨ ∃ bs, 0x050 ≤ s.idx.toNat ∧ s.idx.toNat + bs.length ≤ 0x1000 ∧
    t.mem = (loaderWrite s s.idx.toNat bs).mem)

section
variable {s t : State}

theorem memKeptOrBlock_of_mem_eq (hp : t.params = s.params) (hm : t.mem = s.mem) : MemKeptOrBlock s t :=
  ⟨hp, .inl hm⟩

theorem memKeptOrBlock_of_raise {e : Trap} (h : raise e s = .next t) : MemKeptOrBlock s t := by
  cases h; exact memKeptOrBlock_of_mem_eq rfl rfl

/-- A block write at I that succeeds, then pc + 2: the two stores of R243 and R244. -/
theorem memKeptOrBlock_of_writeBlock {bs : List Byte} (h : writeBlock s s.idx.toNat bs = .ok t) :
    MemKeptOrBlock s t.advance := by
  obtain ⟨rfl, rfl | ⟨lo, hi⟩⟩ := writeBlock_cases s t _ bs h
  · exact memKeptOrBlock_of_mem_eq rfl rfl
  · exact ⟨loaderWrite_params .., .inr ⟨bs, lo, hi, rfl⟩⟩

/-- LD B,Vx and LD [I],Vx alone write memory, each a block at I. -/
theorem exec_memKeptOrBlock {i : Instr} (h : exec i s = .next t) : MemKeptOrBlock s t := by
  cases i with
  | cls | jp | seByte | sneByte | seReg | sneReg | jpV0 | ldByte | addByte | ldReg | orReg | andReg | xorReg | rnd
  | ldVxDt | ldDtVx | ldStVx | ldI | ldF => cases h; exact memKeptOrBlock_of_mem_eq rfl rfl
  | addReg | subReg | shr | subnReg | shl =>
    cases h; exact memKeptOrBlock_of_mem_eq (flagOp_params ..) (flagOp_mem ..)
  | addI => cases h; exact memKeptOrBlock_of_mem_eq (addIndex_params ..) (addIndex_mem ..)
  | ret =>
    by_cases hsp : s.sp.val = 0
    · rw [exec, execRet_underflow s hsp] at h
      exact memKeptOrBlock_of_raise h
    · rw [exec, execRet_pop s hsp] at h
      cases h; exact memKeptOrBlock_of_mem_eq rfl rfl
  | call addr =>
    by_cases hsp : s.sp.val = 16
    · rw [exec, execCall_overflow s addr hsp] at h
      exact memKeptOrBlock_of_raise h
    · rw [exec, execCall_push s addr hsp] at h
      cases h; exact memKeptOrBlock_of_mem_eq rfl rfl
  | ldVxK x =>
    cases hk : scanKeys s.keys with
    | none =>
      rw [exec, execLdVxK_wait s x hk] at h
      cases h; exact memKeptOrBlock_of_mem_eq rfl rfl
    | some k =>
      rw [exec, execLdVxK_found s x k hk] at h
      cases h; exact memKeptOrBlock_of_mem_eq rfl rfl
  | skp | sknp | drw | ldRegs =>
    simp only [exec, execSkp_eq, execSknp_eq, execDrw_eq, execLdRegs_eq] at h
    obtain ⟨e, fails⟩ | ⟨_, -, rfl⟩ := orRaise_map_cases h
    · exact memKeptOrBlock_of_raise fails
    · exact memKeptOrBlock_of_mem_eq rfl rfl
  | ldB | stRegs =>
    simp only [exec, execLdB_eq, execStRegs_eq] at h
    obtain ⟨e, fails⟩ | ⟨u, hu, rfl⟩ := orRaise_map_cases h
    · exact memKeptOrBlock_of_raise fails
    · exact memKeptOrBlock_of_writeBlock hu

/-- A cycle writes memory as its operation does: the fetch, the undecoded word and the tick leave memory alone. -/
theorem step_memKeptOrBlock (h : step s = .next t) : MemKeptOrBlock s t := by
  obtain ⟨-, ⟨e, -, fails⟩ | ⟨w, i, -, -, hi⟩ | ⟨w, e, -, -, rfl⟩⟩ := step_cases s t h
  · exact memKeptOrBlock_of_raise fails
  · obtain ⟨u, hu, ends⟩ := endCycle_cases t _ hi
    have kept := exec_memKeptOrBlock hu
    obtain ⟨-, rfl⟩ | ⟨-, rfl⟩ := ends
    · exact kept
    · exact kept
  · exact memKeptOrBlock_of_mem_eq rfl rfl

end

/-- Settles O26: a cycle keeps the memory list, or writes a block inside memory, which keeps the canonical form. -/
theorem stepKeepsMemoryCanonical : Obligations.StepKeepsMemoryCanonical := by
  intro s t canonical h
  obtain ⟨params_eq, mem_eq | ⟨bs, -, hi, mem_eq⟩⟩ := step_memKeptOrBlock h
  · rw [MemCanonical, params_eq, mem_eq]
    exact canonical
  · rw [MemCanonical, params_eq, mem_eq]
    exact loaderWrite_wf _ s bs canonical hi

/-! ## The canonical form lists exactly the cells that differ from the reset contents -/

section
variable {f : Font} {m k : Memory}

theorem mem_of_lookup {a : Nat} {b : Byte} (h : lookup a m = some b) : (a, b) ∈ m := by
  induction m with
  | nil => simp [lookup] at h
  | cons d ds ih =>
    simp only [lookup] at h
    split at h
    · next e => cases h; cases e; exact List.mem_cons_self
    · exact List.mem_cons_of_mem d (ih h)

theorem lookup_of_mem (rising : m.Pairwise fun c d => c.1 < d.1) {c : Host.Cell} (h : c ∈ m) :
    lookup c.1 m = some c.2 := by
  induction m with
  | nil => cases h
  | cons d ds ih =>
    obtain ⟨below, rising⟩ := List.pairwise_cons.1 rising
    obtain rfl | h := List.mem_cons.1 h
    · simp [lookup]
    · have ne : d.1 ≠ c.1 := (below c h).ne
      rw [lookup, if_neg ne]
      exact ih rising h

/-- A cell is listed exactly when its byte is read at its address and is not the reset contents. -/
theorem mem_iff_readMem (hm : Memory.wf f m) (c : Host.Cell) :
    c ∈ m ↔ readMem f m c.1 = c.2 ∧ c.2 ≠ unlisted f c.1 := by
  obtain ⟨rising, cells⟩ := hm
  constructor
  · intro h
    exact ⟨by rw [readMem, lookup_of_mem rising h, Option.getD_some], (cells c h).2⟩
  · rintro ⟨read, differs⟩
    cases hl : lookup c.1 m with
    | none => rw [readMem, hl, Option.getD_none] at read; exact absurd read.symm differs
    | some b =>
      rw [readMem, hl, Option.getD_some] at read
      exact mem_of_lookup (read ▸ hl)

end

/-- Settles O31: memories that read alike list the same cells, and rising addresses fix their order. -/
theorem canonicalMemoryIsUnique : Obligations.CanonicalMemoryIsUnique := by
  intro f m k hm hk alike
  have same_cells : ∀ c, c ∈ m ↔ c ∈ k := fun c => by rw [mem_iff_readMem hm, mem_iff_readMem hk, alike]
  have : Std.Irrefl fun c d : Host.Cell => c.1 < d.1 := ⟨fun _ => lt_irrefl _⟩
  have : Std.Antisymm fun c d : Host.Cell => c.1 < d.1 := ⟨fun _ _ h h' => absurd h' h.asymm⟩
  exact hm.1.eq_of_mem_iff hk.1 same_cells

/-! ## The fetch reads what was written (spec/20_memory.md R70, R77) -/

section
variable (s : State) (a : Nat) (bs : List Byte)

theorem loaderWrite_byteAt_add (k : Nat) (h : k < bs.length) : (loaderWrite s a bs).byteAt (a + k) = bs[k] := by
  have inside : a ≤ a + k ∧ a + k < a + bs.length := by omega
  rw [loaderWrite_byteAt, dif_pos inside]
  congr 1
  omega

theorem loaderWrite_bytesBut : BytesBut a bs.length s (loaderWrite s a bs) := fun c outside => by
  rw [loaderWrite_byteAt, dif_neg outside]

/-- With pc inside a block just written, the fetch reads the two bytes written there. -/
theorem fetch_of_loaderWrite {t : State} {k : Nat} (bytes : ∀ c, t.byteAt c = (loaderWrite s a bs).byteAt c)
    (hpc : t.pc.toNat = a + k) (hk : k + 1 < bs.length) (fits : a + bs.length ≤ 0x1000) :
    fetch t = .ok (wordOfBytes bs[k] bs[k + 1]) := by
  rw [fetch_ok t (by omega), hpc, bytes, bytes, loaderWrite_byteAt_add s a bs k (by omega), Nat.add_assoc,
    loaderWrite_byteAt_add s a bs (k + 1) hk]

end

/-- A word of 16 bits is its own table word. -/
theorem tableWord_sixteen {w : Nat} (h : w < 65536) : tableWord 16 w = BitVec.ofNat 16 w := by
  rw [tableWord, Nat.mod_eq_of_lt (show w < 2 ^ 16 from h)]

section
variable (s : State) (w : Word)

/-- The address at which a word is placed: pc, or the entry point where pc has no room (log 6). -/
def placeAddr : Word := if s.pc.toNat ≤ 0xFFE then s.pc else 0x200

theorem placeAddr_le : (placeAddr s).toNat ≤ 0xFFE := by
  unfold placeAddr
  split
  · assumption
  · decide

theorem placeWord_eq :
    placeWord s w = loaderWrite { s with pc := placeAddr s, fault := none } (placeAddr s).toNat (bytesOfWord w) := rfl

theorem placeWord_fault : (placeWord s w).fault = none := by rw [placeWord_eq, loaderWrite_fault]

theorem fetch_placeWord : fetch (placeWord s w) = .ok w := by
  have pc_le := placeAddr_le s
  rw [placeWord_eq, fetch_of_loaderWrite _ _ (bytesOfWord w) (k := 0) (fun _ => rfl) (by rw [loaderWrite_pc]; rfl)
    (by simp [bytesOfWord]) (by simp [bytesOfWord]; omega)]
  exact congrArg _ (wordOfBytes_hi_lo w)

/-- Where pc has room, the word goes to pc. -/
theorem placeWord_of_le (h : s.pc.toNat ≤ 0xFFE) :
    placeWord s w = loaderWrite { s with fault := none } s.pc.toNat (bytesOfWord w) := by
  rw [placeWord_eq, placeAddr, if_pos h]

theorem frameBut_placeWord (h : s.pc.toNat ≤ 0xFFE) : FrameBut [.mem, .fault] s (placeWord s w) := by
  rw [placeWord_of_le s w h]
  exact frameBut_iff.2 fun c => by cases c <;> simp [Unchanged, State.reg]

end

/-- Settles O35: the word lies where pc points, and where pc has room only its two bytes and the fault were written. -/
theorem placedWordIsFetched : Obligations.PlacedWordIsFetched := by
  intro s w hw
  simp only [State.withFetchWord, tableWord_sixteen hw]
  refine ⟨placeWord_fault s _, fetch_placeWord s _, fun room => ⟨?_, frameBut_placeWord s _ room⟩⟩
  rw [placeWord_of_le s _ room]
  exact loaderWrite_bytesBut { s with fault := none } _ (bytesOfWord _)

/-- An operation that may fail and raised no fault has completed. -/
theorem orRaise_map_of_no_fault {α : Type} {r : Except Trap α} {f : α → State} {s t : State}
    (h : orRaise s (r.map f) = .next t) (no_fault : t.fault = none) : ∃ a, r = .ok a ∧ t = f a := by
  obtain ⟨e, fails⟩ | completed := orRaise_map_cases h
  · cases fails; cases no_fault
  · exact completed

/-- LD [I],Vx without a fault writes V0..VX at I, inside memory (spec/45_index_memory.md R244). -/
theorem execStRegs_of_no_fault {s t : State} {x : Reg} (h : exec (.stRegs x) s = .next t) (no_fault : t.fault = none) :
    t = (loaderWrite s s.idx.toNat (regsUpTo s x)).advance ∧
      s.idx.toNat + (regsUpTo s x).length ≤ 0x1000 := by
  rw [exec, execStRegs_eq] at h
  obtain ⟨u, hu, rfl⟩ := orRaise_map_of_no_fault h no_fault
  obtain ⟨rfl, empty | ⟨-, hi⟩⟩ := writeBlock_cases s u _ _ hu
  · have := regsUpTo_length s x
    simp [empty] at this
  · exact ⟨rfl, hi⟩

/-- Settles O60: the registers lie at I in order, and the fetch reads them from there. -/
theorem storeIsSeenByTheFetch : Obligations.StoreIsSeenByTheFetch := by
  intro s t x k k' _ h no_fault hk' le
  obtain ⟨rfl, fits⟩ := execStRegs_of_no_fault h no_fault
  have len := regsUpTo_length s x
  have inside : k.val + 1 < (regsUpTo s x).length := by rw [Fin.le_def] at le; omega
  have k'_eq : k' = ⟨k.val + 1, by omega⟩ := Fin.ext hk'
  rw [fetch_of_loaderWrite s s.idx.toNat (regsUpTo s x) (k := k.val) ?bytes ?pc inside fits]
  case bytes => exact fun _ => rfl
  case pc => rw [tick_pc, setPc_pc, BitVec.toNat_ofNat]; omega
  rw [regsUpTo_getElem, regsUpTo_getElem, k'_eq]

/-! ## The step runs the decoded instruction (spec/40_cycle.md R120) -/

/-- A 12-bit field fits its 12 bits (spec/30_encoding.md R92). -/
theorem addrOk_fieldNNN (w : Word) : addrOk (fieldNNN w) = true :=
  decide_eq_true (by rw [fieldNNN_toNat]; omega)

/-! Every word of a family with a selector decodes to an operation without an address operand, or to none. -/

section
variable {m : SecondaryDecode} {w : Word} {i : Instr}

theorem decode0_wf (h : decode0 m w = .ok i) : WellFormed i := by
  cases m with
  | nibbleLow | exact =>
    simp only [decode0] at h
    split_ifs at h <;> cases h <;> rfl

theorem decode8_wf (h : decode8 w = .ok i) : WellFormed i := by
  simp only [decode8] at h
  split_ifs at h <;> cases h <;> rfl

theorem decodeE_wf (h : decodeE m w = .ok i) : WellFormed i := by
  cases m with
  | nibbleLow | exact =>
    simp only [decodeE] at h
    split_ifs at h <;> cases h <;> rfl

theorem decodeF_wf (h : decodeF w = .ok i) : WellFormed i := by
  simp only [decodeF] at h
  split_ifs at h <;> cases h <;> rfl

/-- What is decoded is well-formed (spec/30_encoding.md R92): the split is by the family number, from 0 on. -/
theorem decodeWord_wf (h : decodeWord m w = .ok i) : WellFormed i := by
  unfold decodeWord at h
  split at h
  case h_1 => exact decode0_wf h
  case h_9 => exact decode8_wf h
  case h_15 => exact decodeE_wf h
  case h_16 => exact decodeF_wf h
  case h_2 | h_3 | h_11 | h_12 => cases h; exact addrOk_fieldNNN w
  all_goals cases h; rfl

/-- Two bytes decode as their word does, with nothing left (spec/30_encoding.md R90). -/
theorem decodeWord_of_decode_pair {hi lo : Byte} (h : decode m [hi, lo] = .ok (i, [])) :
    decodeWord m (wordOfBytes hi lo) = .ok i := by
  simp only [decode] at h
  split at h
  · next j hj => cases h; exact hj
  · cases h

end

section
variable {s t : State} {i : Instr}

theorem step_of_decoded {w : Word} (no_fault : s.fault = none) (hw : fetch s = .ok w)
    (hi : decodeWord s.params.secondaryDecode w = .ok i) : step s = endCycle (exec i s) := by
  simp only [step, no_fault, hw, hi]

theorem endCycle_tick (h : t.fault = none) : endCycle (.next t) = .next (tick t) := by
  simp [endCycle, h]

theorem endCycle_faulting (h : t.fault ≠ none) : endCycle (.next t) = .next t := by
  simp [endCycle, Option.isSome_iff_ne_none.2 h]

end

/-- Settles O8: the fetch gives the word of the two bytes, which decodes to `i`, and the cycle's end follows `exec i`. -/
theorem stepRunsTheDecodedInstruction : Obligations.StepRunsTheDecodedInstruction := by
  intro s i no_fault room decoded
  have word := decodeWord_of_decode_pair decoded
  have runs := step_of_decoded no_fault (fetch_ok s room) word
  refine ⟨decodeWord_wf word, runs, fun t ht hf => ?_, fun t ht hf => ?_⟩
  · rw [runs, ht, endCycle_tick hf]
  · rw [runs, ht, endCycle_faulting hf]

end Sys2Proof.Machine

/-! PROOFS. The encoding family (spec/30_encoding.md): the decoder consumes two bytes, inverts the encoder, and is the
opcode map. -/

namespace Sys2Proof.Machine

/-! ## Bytes (spec/30_encoding.md R90) -/

theorem wordOfBytes_eq_ofNat (hi lo : Byte) : wordOfBytes hi lo = BitVec.ofNat 16 (hi.toNat * 256 + lo.toNat) := by
  rw [← wordOfBytes_toNat, BitVec.ofNat_toNat, BitVec.setWidth_eq]

/-- A decoder reads exactly two bytes: it succeeds when their word decodes, and the bytes after them are left over. -/
theorem decode_eq_ok_iff {m : SecondaryDecode} {bytes rest : List Byte} {i : Instr} :
    decode m bytes = .ok (i, rest) ↔
      ∃ hi lo, bytes = hi :: lo :: rest ∧ decodeWord m (wordOfBytes hi lo) = .ok i := by
  match bytes with
  | [] | [_] => simp [decode]
  | hi :: lo :: tail =>
    cases decoded : decodeWord m (wordOfBytes hi lo) with
    | ok j => simp [decode, decoded, and_comm]
    | error e => simp [decode, decoded]

/-- Settles O5: both directions are `decode_eq_ok_iff`, with the word written as a number. -/
theorem decodeConsumesTwoBytes : Obligations.DecodeConsumesTwoBytes := by
  simp only [Obligations.DecodeConsumesTwoBytes, ← wordOfBytes_eq_ofNat]
  exact ⟨fun _ hi lo _ _ h => decode_eq_ok_iff.2 ⟨hi, lo, rfl, h⟩, fun _ _ _ _ => decode_eq_ok_iff.1, fun _ => rfl⟩

/-! ## Decode of encode (spec/30_encoding.md R91, R97) -/

theorem fieldNNN_packA_of_addrOk (op : BitVec 4) {addr : Word} (h : addrOk addr = true) :
    fieldNNN (packA op addr) = addr :=
  fieldNNN_packA op addr (of_decide_eq_true h)

/-- The canonical word decodes to its instruction, format by format: each field is the operand packed there. -/
theorem decodeWord_encode (m : SecondaryDecode) {i : Instr} (wf : WellFormed i) : decodeWord m (encode i) = .ok i := by
  cases i with
  | cls | ret => cases m <;> rfl
  | jp addr | call addr | ldI addr | jpV0 addr =>
    simp [encode, decodeWord, fieldNNN_packA_of_addrOk _ wf]
  | seByte x nn | sneByte x nn | ldByte x nn | addByte x nn | rnd x nn => simp [encode, decodeWord]
  | seReg x y | sneReg x y => simp [encode, decodeWord]
  | drw x y n => simp [encode, decodeWord]
  | ldReg x y | orReg x y | andReg x y | xorReg x y | addReg x y | subReg x y | subnReg x y =>
    simp [encode, decodeWord, decode8]
  | shr x | shl x => simp [encode, decodeWord, decode8]
  | skp x | sknp x => cases m <;> simp [encode, decodeWord, decodeE, fieldN_packXB]
  | ldVxDt x | ldVxK x | ldDtVx x | ldStVx x | addI x | ldF x | ldB x | stRegs x | ldRegs x =>
    simp [encode, decodeWord, decodeF]

/-- Settles O1: the canonical word decodes to its instruction, and its bytes are laid out as the decoder reads them. -/
theorem decodeOfEncode : Obligations.DecodeOfEncode := by
  intro m i rest wf
  have word := decodeWord_encode m wf
  refine ⟨word, decode_eq_ok_iff.2 ⟨hiByte (encode i), loByte (encode i), rfl, ?_⟩⟩
  rw [wordOfBytes_hi_lo, word]

/-! ## The opcode map (spec/30_encoding.md R97) -/

section
variable (w : Word)

/-! The fields by arithmetic are the fields by bits. -/

theorem numX_eq : numX w = fieldX w := Fin.ext (by simp [numX, fieldX_val])
theorem numY_eq : numY w = fieldY w := Fin.ext (by simp [numY, fieldY_val])
theorem numN_eq : numN w = fieldN w := BitVec.eq_of_toNat_eq (by simp [numN, fieldN_toNat])
theorem numNN_eq : numNN w = fieldNN w := BitVec.eq_of_toNat_eq (by simp [numNN, fieldNN_toNat])
theorem numNNN_eq : numNNN w = fieldNNN w := by
  apply BitVec.eq_of_toNat_eq
  rw [numNNN, BitVec.toNat_ofNat, fieldNNN_toNat]
  omega

/-! A word is made of its fields, and each mask of the map keeps some of them and clears the rest. -/

theorem packXYN_fields : packXYN (fieldOp w) (fieldX w) (fieldY w) (fieldN w) = w := by
  apply BitVec.eq_of_toNat_eq
  rw [packXYN_toNat, fieldOp_toNat, fieldX_val, fieldY_val, fieldN_toNat]
  omega

theorem packXB_fields : packXB (fieldOp w) (fieldX w) (fieldNN w) = w := by
  apply BitVec.eq_of_toNat_eq
  rw [packXB_toNat, fieldOp_toNat, fieldX_val, fieldNN_toNat]
  omega

theorem and_0xF (n : BitVec 4) : n &&& 0xF#4 = n := BitVec.and_allOnes
theorem and_0xFF (b : Byte) : b &&& 0xFF#8 = b := BitVec.and_allOnes

theorem and_0xF000 : w &&& 0xF000#16 = packXYN (fieldOp w) 0 0 0#4 := by
  rw [← packXYN_fields (w &&& 0xF000#16)]
  simp [fieldOp, fieldX, fieldY, fieldN, BitVec.extractLsb'_and, and_0xF]

theorem and_0xF00F : w &&& 0xF00F#16 = packXYN (fieldOp w) 0 0 (fieldN w) := by
  rw [← packXYN_fields (w &&& 0xF00F#16)]
  simp [fieldOp, fieldX, fieldY, fieldN, BitVec.extractLsb'_and, and_0xF]

theorem and_0xF0FF : w &&& 0xF0FF#16 = packXB (fieldOp w) 0 (fieldNN w) := by
  rw [← packXB_fields (w &&& 0xF0FF#16)]
  simp [fieldOp, fieldX, fieldNN, BitVec.extractLsb'_and, and_0xF, and_0xFF]

end

/-! A word matches a pattern under a mask exactly when the fields that the mask keeps are the pattern's. -/

section
variable {w p : Word}

theorem matches_nibbleLow_iff (row : OpRow) : row.matches .nibbleLow w = true ↔ w &&& row.mask = row.pat :=
  decide_eq_true_iff

theorem matches_exact_iff (row : OpRow) : row.matches .exact w = true ↔ w &&& row.exactMask = row.exactPat :=
  decide_eq_true_iff

theorem fieldOp_eq_iff : fieldOp w = fieldOp p ↔ (fieldOp w).toNat = p.toNat / 4096 := by
  rw [← fieldOp_toNat, BitVec.toNat_inj]

theorem fieldN_eq_ofNat : fieldN p = BitVec.ofNat 4 p.toNat :=
  BitVec.eq_of_toNat_eq (by rw [fieldN_toNat, BitVec.toNat_ofNat])

theorem fieldNN_eq_ofNat : fieldNN p = BitVec.ofNat 8 p.toNat :=
  BitVec.eq_of_toNat_eq (by rw [fieldNN_toNat, BitVec.toNat_ofNat])

theorem and_0xF000_eq_iff (masked : p &&& 0xF000#16 = p) :
    w &&& 0xF000#16 = p ↔ (fieldOp w).toNat = p.toNat / 4096 := by
  rw [← fieldOp_eq_iff]
  constructor
  · rintro rfl
    rw [and_0xF000, fieldOp_packXYN]
  · intro op
    rw [← masked, and_0xF000, and_0xF000, op]

theorem and_0xF00F_eq_iff (masked : p &&& 0xF00F#16 = p) :
    w &&& 0xF00F#16 = p ↔ (fieldOp w).toNat = p.toNat / 4096 ∧ fieldN w = BitVec.ofNat 4 p.toNat := by
  rw [← fieldOp_eq_iff, ← fieldN_eq_ofNat]
  constructor
  · rintro rfl
    rw [and_0xF00F, fieldOp_packXYN, fieldN_packXYN]
    exact ⟨rfl, rfl⟩
  · rintro ⟨op, n⟩
    rw [← masked, and_0xF00F, and_0xF00F, op, n]

theorem and_0xF0FF_eq_iff (masked : p &&& 0xF0FF#16 = p) :
    w &&& 0xF0FF#16 = p ↔ (fieldOp w).toNat = p.toNat / 4096 ∧ fieldNN w = BitVec.ofNat 8 p.toNat := by
  rw [← fieldOp_eq_iff, ← fieldNN_eq_ofNat]
  constructor
  · rintro rfl
    rw [and_0xF0FF, fieldOp_packXB, fieldNN_packXB]
    exact ⟨rfl, rfl⟩
  · rintro ⟨op, nn⟩
    rw [← masked, and_0xF0FF, and_0xF0FF, op, nn]

/-- The whole word compared: its family is named as well, as for the other masks. -/
theorem and_0xFFFF_eq_iff : w &&& 0xFFFF#16 = p ↔ (fieldOp w).toNat = p.toNat / 4096 ∧ w = p := by
  rw [← fieldOp_eq_iff, show w &&& 0xFFFF#16 = w from BitVec.and_allOnes]
  exact ⟨fun h => ⟨congrArg fieldOp h, h⟩, And.right⟩

end

/-! What each family with a selector decodes to (spec/30_encoding.md R94, R95): one disjunct a row. -/

section
variable {w : Word} {i : Instr}

/-- A decoded operation, in the map's spelling `i = row.build w`. -/
theorem ok_eq_ok_iff {j : Instr} : (Except.ok j : Except DecodeError Instr) = .ok i ↔ i = j := by
  rw [Except.ok.injEq, eq_comm]

theorem decode0_nibbleLow_eq_ok_iff :
    decode0 .nibbleLow w = .ok i ↔ fieldN w = 0x0#4 ∧ i = .cls ∨ fieldN w = 0xE#4 ∧ i = .ret := by
  simp only [decode0]
  split_ifs <;> simp [*, ok_eq_ok_iff, -Except.ok.injEq]

theorem decode0_exact_eq_ok_iff :
    decode0 .exact w = .ok i ↔ w = 0x00E0#16 ∧ i = .cls ∨ w = 0x00EE#16 ∧ i = .ret := by
  simp only [decode0]
  split_ifs <;> simp [*, ok_eq_ok_iff, -Except.ok.injEq]

theorem decode8_eq_ok_iff :
    decode8 w = .ok i ↔
      fieldN w = 0x0#4 ∧ i = .ldReg (fieldX w) (fieldY w) ∨ fieldN w = 0x1#4 ∧ i = .orReg (fieldX w) (fieldY w) ∨
      fieldN w = 0x2#4 ∧ i = .andReg (fieldX w) (fieldY w) ∨ fieldN w = 0x3#4 ∧ i = .xorReg (fieldX w) (fieldY w) ∨
      fieldN w = 0x4#4 ∧ i = .addReg (fieldX w) (fieldY w) ∨ fieldN w = 0x5#4 ∧ i = .subReg (fieldX w) (fieldY w) ∨
      fieldN w = 0x6#4 ∧ i = .shr (fieldX w) ∨ fieldN w = 0x7#4 ∧ i = .subnReg (fieldX w) (fieldY w) ∨
      fieldN w = 0xE#4 ∧ i = .shl (fieldX w) := by
  simp only [decode8]
  split_ifs <;> simp [*, ok_eq_ok_iff, -Except.ok.injEq]

theorem decodeE_nibbleLow_eq_ok_iff :
    decodeE .nibbleLow w = .ok i ↔
      fieldN w = 0xE#4 ∧ i = .skp (fieldX w) ∨ fieldN w = 0x1#4 ∧ i = .sknp (fieldX w) := by
  simp only [decodeE]
  split_ifs <;> simp [*, ok_eq_ok_iff, -Except.ok.injEq]

theorem decodeE_exact_eq_ok_iff :
    decodeE .exact w = .ok i ↔
      fieldNN w = 0x9E#8 ∧ i = .skp (fieldX w) ∨ fieldNN w = 0xA1#8 ∧ i = .sknp (fieldX w) := by
  simp only [decodeE]
  split_ifs <;> simp [*, ok_eq_ok_iff, -Except.ok.injEq]

theorem decodeF_eq_ok_iff :
    decodeF w = .ok i ↔
      fieldNN w = 0x07#8 ∧ i = .ldVxDt (fieldX w) ∨ fieldNN w = 0x0A#8 ∧ i = .ldVxK (fieldX w) ∨
      fieldNN w = 0x15#8 ∧ i = .ldDtVx (fieldX w) ∨ fieldNN w = 0x18#8 ∧ i = .ldStVx (fieldX w) ∨
      fieldNN w = 0x1E#8 ∧ i = .addI (fieldX w) ∨ fieldNN w = 0x29#8 ∧ i = .ldF (fieldX w) ∨
      fieldNN w = 0x33#8 ∧ i = .ldB (fieldX w) ∨ fieldNN w = 0x55#8 ∧ i = .stRegs (fieldX w) ∨
      fieldNN w = 0x65#8 ∧ i = .ldRegs (fieldX w) := by
  simp only [decodeF]
  split_ifs <;> simp [*, ok_eq_ok_iff, -Except.ok.injEq]

end

/-- Settles O2: every row says which family it is of and which selector it asks for, so in each family the rows that can
match are those its decoder answers. -/
theorem decoderIsTheOpcodeMap : Obligations.DecoderIsTheOpcodeMap := by
  intro m w i
  cases m with
  | nibbleLow | exact =>
    simp (disch := decide) only [opcodeMap, plainRow, List.exists_mem_cons_iff, List.not_mem_nil, false_and,
      exists_false, or_false, matches_nibbleLow_iff, matches_exact_iff, BitVec.ofNat_eq_ofNat,
      and_0xF000_eq_iff, and_0xF00F_eq_iff, and_0xF0FF_eq_iff, and_0xFFFF_eq_iff,
      numX_eq, numY_eq, numN_eq, numNN_eq, numNNN_eq, decodeWord]
    have family_lt := (fieldOp w).isLt
    generalize (fieldOp w).toNat = family at family_lt ⊢
    match family with
    | 0 => simp [decode0_nibbleLow_eq_ok_iff, decode0_exact_eq_ok_iff]
    | 8 => simp [decode8_eq_ok_iff]
    | 14 => simp [decodeE_nibbleLow_eq_ok_iff, decodeE_exact_eq_ok_iff]
    | 15 => simp [decodeF_eq_ok_iff]
    | 1 | 2 | 3 | 4 | 5 | 6 | 7 | 9 | 10 | 11 | 12 | 13 => simp [ok_eq_ok_iff, -Except.ok.injEq]
    | beyond + 16 => omega

end Sys2Proof.Machine

/-! PROOFS. The cycle family (spec/40_cycle.md): the tick, the cycles in which it runs, and the table of the pc. -/

namespace Sys2Proof.Machine

/-! ## The tick (spec/40_cycle.md R126) -/

theorem countDown_toNat (b : Byte) : (countDown b).toNat = if b.toNat > 0 then b.toNat - 1 else 0 := by
  by_cases zero : b = 0
  · simp [countDown, zero]
  · have pos : b.toNat > 0 := by bv_omega
    rw [countDown, if_neg zero, if_pos pos]
    bv_omega

theorem frameBut_tick (s : State) : FrameBut [.dt, .st, .audio] s (tick s) :=
  frameBut_iff.2 fun c => by cases c <;> simp [Unchanged]

/-- Settles O9: both timers are counted down, audio compares the sound timer that the tick starts with. -/
theorem tickCountsDown : Obligations.TickCountsDown := by
  intro s
  refine ⟨?audio, countDown_toNat s.dt, countDown_toNat s.st, frameBut_tick s⟩
  rw [tick_audio, decide_eq_true_iff, ← BitVec.toNat_inj]
  rfl

/-! ## The cycles in which the tick runs (spec/40_cycle.md R125) -/

/-- A cycle that ends without a fault is the tick of what its operation, or the undecoded word, left. -/
theorem step_tick {s t : State} (h : step s = .next t) (no_fault : t.fault = none) :
    ∃ u, t = tick u ∧
      ((∃ w i, fetch s = .ok w ∧ decodeWord s.params.secondaryDecode w = .ok i ∧ exec i s = .next u) ∨
       (∃ w e, fetch s = .ok w ∧ decodeWord s.params.secondaryDecode w = .error e ∧ u = undecoded s)) := by
  obtain ⟨-, ⟨e, -, fails⟩ | ⟨w, i, hw, hi, ends⟩ | ⟨w, e, hw, he, rfl⟩⟩ := step_cases s t h
  · cases fails; cases no_fault
  · obtain ⟨u, hu, ⟨faulted, rfl⟩ | ⟨-, rfl⟩⟩ := endCycle_cases t _ ends
    · simp [no_fault] at faulted
    · exact ⟨u, rfl, .inl ⟨w, i, hw, hi, hu⟩⟩
  · exact ⟨undecoded s, rfl, .inr ⟨w, e, hw, he, rfl⟩⟩

/-- Settles O10: a cycle without a fault ends in the tick, and a waiting LD Vx,K hands it the state unchanged. -/
theorem tickRunsInEveryCycle : Obligations.TickRunsInEveryCycle := by
  refine ⟨fun s t => step_tick, fun s w x no_fault hw hi no_key => ?_⟩
  have waits : exec (.ldVxK x) s = .next s := execLdVxK_wait s x ((scanKeys_none s.keys).2 no_key)
  rw [step_of_decoded no_fault hw hi, waits, endCycle_tick no_fault]

/-! ## The pc an operation writes (spec/40_cycle.md R122) -/

section
variable (s : State)

/-- A skip on a condition that the table states as a proposition. -/
theorem skipIf_pc_eq_skipPc {c : Bool} {p : Prop} [Decidable p] (h : c = true ↔ p) : (s.skipIf c).pc = skipPc s p :=
  if_congr h rfl rfl

/-- A key number that names a key gives that key's level. -/
theorem keyAt_eq_ok_iff {b : Byte} {level : Bool} :
    keyAt s b = .ok level ↔ ∃ k : Reg, k.val = b.toNat ∧ s.keys[k] = level := by
  by_cases names : b.toNat < 16
  · rw [keyAt_ok s b names, Except.ok.injEq]
    exact ⟨fun h => ⟨⟨b.toNat, names⟩, rfl, h⟩, fun ⟨k, hk, h⟩ => by simpa [← hk] using h⟩
  · rw [keyAt_error s b names]
    exact ⟨nofun, fun ⟨k, hk, _⟩ => absurd (hk ▸ k.isLt) names⟩

/-- The level a key test found, in the words of the table. -/
theorem level_iff_of_keyAt {b : Byte} {level : Bool} (h : keyAt s b = .ok level) (l : Bool) :
    level = l ↔ ∃ k : Reg, k.val = b.toNat ∧ s.keys[k] = l := by
  rw [← keyAt_eq_ok_iff, h, Except.ok.injEq]

theorem scanKeys_ne_none_iff (keys : Vector Bool 16) : scanKeys keys ≠ none ↔ ∃ k : Reg, keys[k] = true := by
  simp [scanKeys_none]

/-- LD Vx,K moves on exactly when a key is pressed (spec/44_input_timers.md R223). -/
theorem execLdVxK_pc {t : State} {x : Reg} (h : execLdVxK x s = .next t) :
    t.pc = if ∃ k : Reg, s.keys[k] = true then s.pc + 2 else s.pc := by
  cases hk : scanKeys s.keys with
  | none =>
    rw [execLdVxK_wait s x hk] at h
    cases h
    rw [if_neg fun pressed => (scanKeys_ne_none_iff s.keys).2 pressed hk]
  | some k =>
    have pressed := (scanKeys_ne_none_iff s.keys).1 (by simp [hk])
    rw [execLdVxK_found s x k hk] at h
    cases h
    rw [if_pos pressed]; rfl

/-- The table's top of the stack is the slot RET pops: sp stays below 17, so its remainder is idle. -/
theorem topOfStack_eq : topOfStack s = s.stack[s.sp.val - 1]'(by omega) := by
  have inside : (s.sp.val - 1) % 16 = s.sp.val - 1 := Nat.mod_eq_of_lt (by omega)
  simp only [topOfStack, inside]

end

/-- An operation that raises no fault writes the pc that the table gives it: one case for each shape of operation. -/
theorem exec_pc {i : Instr} {s t : State} (h : exec i s = .next t) (no_fault : t.fault = none) :
    t.pc = pcTable i s := by
  cases i with
  | jp | jpV0 | cls | ldByte | addByte | ldReg | orReg | andReg | xorReg | ldI | ldF | rnd | ldVxDt | ldDtVx | ldStVx =>
    cases h; rfl
  | addReg | subReg | shr | subnReg | shl => cases h; exact flagOp_pc s ..
  | addI x => cases h; exact addIndex_pc s x
  | seByte | sneByte | seReg | sneReg => cases h; exact skipIf_pc_eq_skipPc s decide_eq_true_iff
  | ret =>
    by_cases hsp : s.sp.val = 0
    · rw [exec, execRet_underflow s hsp] at h
      cases h; cases no_fault
    · rw [exec, execRet_pop s hsp] at h
      cases h; rw [pcTable, topOfStack_eq]
  | call addr =>
    by_cases hsp : s.sp.val = 16
    · rw [exec, execCall_overflow s addr hsp] at h
      cases h; cases no_fault
    · rw [exec, execCall_push s addr hsp] at h
      cases h; rfl
  | ldVxK => exact execLdVxK_pc s h
  | skp =>
    rw [exec, execSkp_eq] at h
    obtain ⟨pressed, hk, rfl⟩ := orRaise_map_of_no_fault h no_fault
    exact skipIf_pc_eq_skipPc s (level_iff_of_keyAt s hk true)
  | sknp =>
    rw [exec, execSknp_eq] at h
    obtain ⟨pressed, hk, rfl⟩ := orRaise_map_of_no_fault h no_fault
    have released : (!pressed) = true ↔ pressed = false := by rw [Bool.not_eq_true']
    exact skipIf_pc_eq_skipPc s (released.trans (level_iff_of_keyAt s hk false))
  | drw | ldRegs =>
    simp only [exec, execDrw_eq, execLdRegs_eq] at h
    obtain ⟨_, -, rfl⟩ := orRaise_map_of_no_fault h no_fault
    rfl
  | ldB | stRegs =>
    simp only [exec, execLdB_eq, execStRegs_eq] at h
    obtain ⟨u, hu, rfl⟩ := orRaise_map_of_no_fault h no_fault
    obtain ⟨rfl, -⟩ := writeBlock_cases s u _ _ hu
    rw [advance_pc, loaderWrite_pc]; rfl

/-- Settles O13: the operation writes the table's pc, and the tick that ends the cycle keeps it. -/
theorem pcTable_holds : Obligations.PcTable := by
  refine ⟨fun i s t _ => exec_pc, fun s t w h no_fault hw => ?_⟩
  obtain ⟨u, rfl, ⟨w', i, hw', hi, hu⟩ | ⟨w', e, hw', he, rfl⟩⟩ := step_tick h no_fault
  · obtain rfl : w = w' := Except.ok.inj (hw.symm.trans hw')
    refine ⟨fun j hj => ?_, fun e he => ?_⟩
    · obtain rfl : i = j := Except.ok.inj (hi.symm.trans hj)
      exact (tick_pc u).trans (exec_pc hu no_fault)
    · cases hi.symm.trans he
  · obtain rfl : w = w' := Except.ok.inj (hw.symm.trans hw')
    refine ⟨fun j hj => ?_, fun _ _ => ?_⟩
    · cases he.symm.trans hj
    · rw [tick_pc, undecoded_pc]
      cases s.params.undecodedStep <;> rfl

end Sys2Proof.Machine

/-! PROOFS. The control flow family (spec/41_control_flow.md): the jumps, the call stack, and the skips on values. -/

namespace Sys2Proof.Machine

/-! ## The jumps -/

/-- Settles O36: both jumps are one write of the pc; JP V0 adds V0 zero-extended, in 16 bits. -/
theorem jumps : Obligations.Jumps := by
  intro s addr
  refine ⟨⟨s.setPc addr, rfl, setPc_pc s addr, frameBut_pc s addr⟩, _, rfl, ?_, frameBut_pc s _⟩
  have fits : (s.reg 0).toNat < 65536 := by omega
  rw [setPc_pc, BitVec.toNat_add, BitVec.toNat_setWidth, Nat.mod_eq_of_lt fits]

/-! ## The call stack (spec/10_state.md section 5) -/

/-- Settles O37: below 16, sp names the slot that CALL writes. -/
theorem callPushesItsAddress : Obligations.CallPushesItsAddress := by
  intro s addr k hk
  have room : s.sp.val ≠ 16 := by omega
  refine ⟨_, execCall_push s addr room, ?slot, fun j hj => ?others, rfl, rfl, frameBut_call s _ _ _⟩
  case slot => simp [hk]
  case others =>
    have ne : s.sp.val ≠ j.val := fun h => hj (Fin.ext (h.symm.trans hk))
    exact Vector.getElem_set_ne (by omega) j.isLt ne

/-- Settles O38: sp - 1 names the slot that RET reads. -/
theorem retPopsAndAddsTwo : Obligations.RetPopsAndAddsTwo := by
  intro s k hk
  have entry : s.sp.val ≠ 0 := by omega
  have top : s.sp.val - 1 = k.val := by omega
  refine ⟨_, execRet_pop s entry, top, ?_, frameBut_ret s _ _⟩
  simp [top]

/-- A CALL that raises no fault found room on the stack (spec/60_exceptions.md R261). -/
theorem sp_lt_of_call {s t : State} {addr : Word} (h : exec (.call addr) s = .next t) (no_fault : t.fault = none) :
    s.sp.val < 16 := by
  by_contra full
  rw [exec, execCall_overflow s addr (by omega)] at h
  cases h; cases no_fault

/-- Settles O39: the slot CALL pushes its address to is the slot RET pops. -/
theorem callThenRet : Obligations.CallThenRet := by
  intro s t u addr _ call no_fault stack_eq sp_eq
  let k : Fin 16 := ⟨s.sp.val, sp_lt_of_call call no_fault⟩
  obtain ⟨t', call', slot, -, sp_call, -, -⟩ := callPushesItsAddress s addr k rfl
  obtain rfl : t = t' := Host.Outcome.next.inj (call.symm.trans call')
  obtain ⟨v, ret, sp_ret, pc_ret, frame⟩ := retPopsAndAddsTwo u k (sp_eq ▸ sp_call)
  have pushed : u.stack[k] = s.pc := by rw [stack_eq, slot]
  exact ⟨v, ret, by rw [pc_ret, pushed], Fin.ext sp_ret, frame⟩

/-! ## The skips (spec/41_control_flow.md R148) -/

section
variable (s : State) {c : Bool} {p : Prop} [Decidable p]

/-- A skip moves the pc by 4 where its condition holds and by 2 where it fails, and writes the pc alone. -/
theorem skipIf_skips (h : c = true ↔ p) :
    (s.skipIf c).pc = s.pc + (if p then 4 else 2) ∧ FrameBut [.pc] s (s.skipIf c) := by
  refine ⟨?_, frameBut_pc s _⟩
  rw [skipIf_pc_eq_skipPc s h, skipPc, apply_ite (s.pc + ·)]

/-- The same for a skip on the negation of what is tested. -/
theorem skipIf_skips_not (h : c = true ↔ ¬p) :
    (s.skipIf c).pc = s.pc + (if p then 2 else 4) ∧ FrameBut [.pc] s (s.skipIf c) :=
  ite_not p (4 : Word) 2 ▸ skipIf_skips s h

end

/-- Settles O40: all four are skips, SE on the equality and SNE on its negation. -/
theorem skipsOnValues : Obligations.SkipsOnValues := fun s _ _ _ =>
  ⟨⟨_, rfl, skipIf_skips s decide_eq_true_iff⟩, ⟨_, rfl, skipIf_skips_not s decide_eq_true_iff⟩,
    ⟨_, rfl, skipIf_skips s decide_eq_true_iff⟩, ⟨_, rfl, skipIf_skips_not s decide_eq_true_iff⟩⟩

end Sys2Proof.Machine

/-! PROOFS. The arithmetic and logic family (spec/42_alu.md): loads, the immediate addition, and the bitwise operations. -/

namespace Sys2Proof.Machine

/-! ## One register written, and no flag (spec/42_alu.md R172–R177) -/

section
variable (s : State) (x : Reg) (b : Byte)

theorem advance_setReg_reg_same : (s.setReg x b).advance.reg x = b := by
  rw [advance_reg, setReg_reg_same]

/-- Around the register it writes, such an operation moves the pc alone. -/
theorem advance_setReg_quiet :
    (s.setReg x b).advance.pc = s.pc + 2 ∧ RegsBut [x] s (s.setReg x b).advance ∧
      FrameBut [.pc, .regs] s (s.setReg x b).advance :=
  ⟨rfl, fun r hr => setReg_reg_ne s x r b (List.ne_of_not_mem_cons hr), frameBut_pc_regs s _ _⟩

end

/-! ## The words 6XNN and 7XNN (spec/30_encoding.md R91) -/

theorem packXB_eq_ofNat (op : BitVec 4) (x : Reg) (nn : Byte) :
    packXB op x nn = BitVec.ofNat 16 (op.toNat * 4096 + x.val * 256 + nn.toNat) := by
  rw [← packXB_toNat, BitVec.ofNat_toNat, BitVec.setWidth_eq]

theorem encode_ldByte (x : Reg) (nn : Byte) :
    encode (.ldByte x nn) = BitVec.ofNat 16 (0x6000 + x.val * 256 + nn.toNat) :=
  packXB_eq_ofNat 0x6 x nn

theorem encode_addByte (x : Reg) (nn : Byte) :
    encode (.addByte x nn) = BitVec.ofNat 16 (0x7000 + x.val * 256 + nn.toNat) :=
  packXB_eq_ofNat 0x7 x nn

/-- Settles O43: both words are the canonical ones, and both operations write one register. -/
theorem loadAndAddImmediate : Obligations.LoadAndAddImmediate := by
  intro s m x nn
  rw [← encode_ldByte, ← encode_addByte]
  refine ⟨⟨decodeWord_encode m rfl, _, rfl, advance_setReg_reg_same s x nn, advance_setReg_quiet s x nn⟩,
    decodeWord_encode m rfl, _, rfl, ?sum, advance_setReg_quiet s x _⟩
  case sum => rw [advance_setReg_reg_same, BitVec.toNat_add]

/-- Settles O44: each operation writes Vx alone, and its value is read off bit by bit. -/
theorem copyAndLogic : Obligations.CopyAndLogic := by
  intro s x y
  refine ⟨⟨_, rfl, advance_setReg_reg_same s x _, advance_setReg_quiet s x _⟩,
    ⟨_, rfl, fun b => ?or, advance_setReg_quiet s x _⟩,
    ⟨_, rfl, fun b => ?and, advance_setReg_quiet s x _⟩,
    ⟨_, rfl, fun b => ?xor, advance_setReg_quiet s x _⟩⟩
  case or => rw [advance_setReg_reg_same, BitVec.getLsbD_or]
  case and => rw [advance_setReg_reg_same, BitVec.getLsbD_and]
  case xor => rw [advance_setReg_reg_same, BitVec.getLsbD_xor]

end Sys2Proof.Machine

/-! PROOFS. The display family (spec/43_display.md): CLS, which cannot fault. -/

namespace Sys2Proof.Machine

/-- Settles O47: the one state CLS ends in has the zero vector as its display, no bit of which is set. -/
theorem clsClearsTheDisplay : Obligations.ClsClearsTheDisplay :=
  fun s => ⟨_, rfl, fun _ => BitVec.getLsbD_zero, rfl, rfl, frameBut_cls s⟩

end Sys2Proof.Machine

/-! PROOFS. The input and timers family (spec/44_input_timers.md): the key operations, the timer moves, both timers over
a cycle, and the key wait. -/

namespace Sys2Proof.Machine

/-! ## The operations (spec/44_input_timers.md R220–R225) -/

section
variable (s : State) (x k : Reg)

/-- A register that holds a key's number gives that key's level. -/
theorem keyAt_of_reg (names : (s.reg x).toNat = k.val) : keyAt s (s.reg x) = .ok s.keys[k] :=
  (keyAt_eq_ok_iff s).2 ⟨k, names.symm, rfl⟩

theorem execSkp_of_key (names : (s.reg x).toNat = k.val) : execSkp x s = .next (s.skipIf s.keys[k]) := by
  rw [execSkp_eq, keyAt_of_reg s x k names]; rfl

theorem execSknp_of_key (names : (s.reg x).toNat = k.val) : execSknp x s = .next (s.skipIf !s.keys[k]) := by
  rw [execSknp_eq, keyAt_of_reg s x k names]; rfl

end

/-- Settles O41: a key number names a key, and both operations are skips on its level. -/
theorem skipsOnKeys : Obligations.SkipsOnKeys := fun s x k names =>
  ⟨⟨_, execSkp_of_key s x k names, skipIf_skips s Iff.rfl⟩,
    ⟨_, execSknp_of_key s x k names, skipIf_skips_not s (by rw [Bool.not_eq_true', Bool.not_eq_true])⟩⟩

/-- Settles O50: the scan finds no key exactly when none is pressed, and finds the highest of those that are. -/
theorem waitForKey : Obligations.WaitForKey := by
  intro s x
  refine ⟨fun no_key => execLdVxK_wait s x ((scanKeys_none s.keys).2 no_key), fun k pressed highest => ?_⟩
  refine ⟨_, execLdVxK_found s x k (scanKeys_some s.keys k pressed highest), ?number, advance_setReg_quiet s x _⟩
  case number =>
    have fits : k.val < 256 := by omega
    rw [advance_setReg_reg_same, BitVec.toNat_ofNat, Nat.mod_eq_of_lt fits]

/-- Settles O52: each operation is one copy and pc + 2. -/
theorem timerMoves : Obligations.TimerMoves := fun s x =>
  ⟨⟨_, rfl, advance_setReg_reg_same s x s.dt, advance_setReg_quiet s x s.dt⟩,
    ⟨_, rfl, rfl, rfl, frameBut_setDt s (s.reg x)⟩, ⟨_, rfl, rfl, rfl, frameBut_setSt s (s.reg x)⟩⟩

/-! ## The timers over a cycle (spec/40_cycle.md R126–R128) -/

/-- A countdown is the truncated subtraction of one. -/
theorem countDown_toNat_eq_sub (b : Byte) : (countDown b).toNat = b.toNat - 1 := by
  rw [countDown_toNat]
  split <;> omega

theorem tick_audio_iff (s : State) : (tick s).audio = true ↔ s.st.toNat = 1 :=
  (tickCountsDown s).1

section
variable {s t : State} {w : Word}

/-- A cycle of a decoded word that ends without a fault is the operation, then the tick. -/
theorem step_tick_of_decoded {i : Instr} (h : step s = .next t) (no_fault : t.fault = none) (hw : fetch s = .ok w)
    (hi : decodeWord s.params.secondaryDecode w = .ok i) : ∃ u, exec i s = .next u ∧ t = tick u := by
  obtain ⟨u, ticks, ⟨w', j, hw', hj, hu⟩ | ⟨w', e, hw', he, -⟩⟩ := step_tick h no_fault
  · obtain rfl : w = w' := Except.ok.inj (hw.symm.trans hw')
    obtain rfl : i = j := Except.ok.inj (hi.symm.trans hj)
    exact ⟨u, hu, ticks⟩
  · obtain rfl : w = w' := Except.ok.inj (hw.symm.trans hw')
    cases hi.symm.trans he

/-- A piece that the fetched word's operation does not name reaches the tick unchanged; an undecoded word names pc
alone. -/
theorem step_tick_unchanged (h : step s = .next t) (no_fault : t.fault = none) (hw : fetch s = .ok w) (c : Component)
    (not_fault : c ≠ .fault) (not_pc : c ≠ .pc)
    (unnamed : ∀ i, decodeWord s.params.secondaryDecode w = .ok i → c ∉ writes i) :
    ∃ u, t = tick u ∧ Unchanged c s u := by
  obtain ⟨u, ticks, ⟨w', i, hw', hi, hu⟩ | ⟨-, -, -, -, rfl⟩⟩ := step_tick h no_fault
  · obtain rfl : w = w' := Except.ok.inj (hw.symm.trans hw')
    exact ⟨u, ticks, exec_unchanged hu c not_fault (unnamed i hi)⟩
  · exact ⟨_, ticks, frameBut_pc s _ c (by simpa using not_pc)⟩

end

/-- Settles O11: the tick starts with the sound timer that LD ST,Vx has just written, or with the old one. -/
theorem audioTrigger : Obligations.AudioTrigger := by
  intro s t w h no_fault hw
  refine ⟨fun x hx => ?written, fun other => ?kept⟩
  case written =>
    obtain ⟨u, hu, rfl⟩ := step_tick_of_decoded h no_fault hw hx
    cases hu
    exact ⟨tick_audio_iff _, countDown_toNat_eq_sub (s.reg x)⟩
  case kept =>
    obtain ⟨u, rfl, (st_eq : u.st = s.st)⟩ := step_tick_unchanged h no_fault hw .st (by decide) (by decide)
      fun i hi named => (st_mem_writes named).elim fun x is_ldSt => other x (is_ldSt ▸ hi)
    exact st_eq ▸ ⟨tick_audio_iff u, countDown_toNat_eq_sub u.st⟩

/-- Settles O12: the tick starts with the delay timer that LD DT,Vx has just written, or with the old one. -/
theorem delayTimerOverACycle : Obligations.DelayTimerOverACycle := by
  intro s t w h no_fault hw
  refine ⟨fun x hx => ?written, fun x hx => ?read, fun other => ?kept⟩
  case written =>
    obtain ⟨u, hu, rfl⟩ := step_tick_of_decoded h no_fault hw hx
    cases hu
    exact countDown_toNat_eq_sub (s.reg x)
  case read =>
    obtain ⟨u, hu, rfl⟩ := step_tick_of_decoded h no_fault hw hx
    cases hu
    exact ⟨advance_setReg_reg_same s x s.dt, countDown_toNat_eq_sub s.dt⟩
  case kept =>
    obtain ⟨u, rfl, (dt_eq : u.dt = s.dt)⟩ := step_tick_unchanged h no_fault hw .dt (by decide) (by decide)
      fun i hi named => (dt_mem_writes named).elim fun x is_ldDt => other x (is_ldDt ▸ hi)
    exact dt_eq ▸ countDown_toNat_eq_sub u.dt

/-! ## The keys are the host's (spec/44_input_timers.md R226) -/

/-- No operation names the key vector. -/
theorem keys_notMem_writes (i : Instr) : .keys ∉ writes i := by
  cases i <;> simp [writes]

section
variable {s t : State}

/-- No cycle writes the key vector. -/
theorem step_keys (h : step s = .next t) : t.keys = s.keys := by
  obtain ⟨-, ⟨e, -, fails⟩ | ⟨w, i, -, -, ends⟩ | ⟨w, e, -, -, rfl⟩⟩ := step_cases s t h
  · exact frameBut_raise fails .keys (by simp)
  · obtain ⟨u, hu, ⟨-, rfl⟩ | ⟨-, rfl⟩⟩ := endCycle_cases t _ ends
    all_goals exact exec_unchanged hu .keys (by decide) (keys_notMem_writes i)
  · rfl

theorem stepRequest_of_next (h : step s = .next t) : stepRequest s = t := by
  rw [stepRequest, h]

theorem stepRequest_keys (s : State) : (stepRequest s).keys = s.keys := by
  unfold stepRequest
  split
  case h_1 t ht => exact step_keys ht
  case h_2 | h_3 => rfl

/-- The word that was to be fetched is run on the keys just set, and the tick follows. -/
theorem serveAll_setKeys_step {w : Word} {i : Instr} {keys : Vector Bool 16} (no_fault : s.fault = none)
    (hw : fetch s = .ok w) (hi : decodeWord s.params.secondaryDecode w = .ok i)
    (runs : exec i (setKeys keys s) = .next t) (kept : Unchanged .fault (setKeys keys s) t) :
    serveAll [.setKeys keys, .step] s = tick t := by
  have cycle := step_of_decoded (s := setKeys keys s) no_fault hw hi
  rw [runs, endCycle_tick (Eq.trans kept no_fault)] at cycle
  exact stepRequest_of_next cycle

end

/-- Settles O24: no cycle writes the keys, and each of the three operations runs on the vector just set. -/
theorem keysAreTheHosts : Obligations.KeysAreTheHosts := by
  refine ⟨fun s keys => rfl, fun s r not_set not_load => ?kept, fun s keys w x k no_fault hw => ?seen⟩
  case kept =>
    cases r with
    | setKeys keys => exact absurd rfl (not_set keys)
    | load bytes => exact absurd rfl (not_load bytes)
    | step => exact stepRequest_keys s
    | readPixels | readRedraw | clearRedraw | readAudio | readFault => rfl
  case seen =>
    refine ⟨fun hi names => ?skp, fun hi names => ?sknp, fun hi pressed highest => ?ldVxK⟩
    case skp =>
      obtain ⟨⟨t, runs, pc_eq, frame⟩, -⟩ := skipsOnKeys (setKeys keys s) x k names
      rw [serveAll_setKeys_step no_fault hw hi runs (frame .fault (by decide))]
      exact pc_eq
    case sknp =>
      obtain ⟨-, t, runs, pc_eq, frame⟩ := skipsOnKeys (setKeys keys s) x k names
      rw [serveAll_setKeys_step no_fault hw hi runs (frame .fault (by decide))]
      exact pc_eq
    case ldVxK =>
      obtain ⟨t, runs, reg_eq, pc_eq, -, frame⟩ := (waitForKey (setKeys keys s) x).2 k pressed highest
      rw [serveAll_setKeys_step no_fault hw hi runs (frame .fault (by decide))]
      exact ⟨reg_eq, pc_eq⟩

/-! ## The key wait (spec/44_input_timers.md R227) -/

theorem FrameBut.refl (written : List Component) (s : State) : FrameBut written s s :=
  fun c _ => by cases c <;> simp [Unchanged]

theorem Unchanged.trans {c : Component} {s t u : State} (h : Unchanged c s t) (h' : Unchanged c t u) :
    Unchanged c s u := by
  cases c with
  | mem | regs => exact fun a => (h' a).trans (h a)
  | idx | pc | stack | sp | dt | st | disp | redraw | keys | audio | fault | params | draws => exact Eq.trans h' h

theorem FrameBut.trans {written : List Component} {s t u : State} (h : FrameBut written s t)
    (h' : FrameBut written t u) : FrameBut written s u :=
  fun c hc => (h c hc).trans (h' c hc)

/-- `s` waits for a key: it is about to execute the word `w` of LD Vx,K, and no key is pressed. -/
structure WaitsForKey (s : State) (w : Word) (x : Reg) : Prop where
  no_fault : s.fault = none
  fetched : fetch s = .ok w
  decoded : decodeWord s.params.secondaryDecode w = .ok (.ldVxK x)
  no_key : ∀ k : Reg, s.keys[k] = false

section
variable {s : State} {w : Word} {x : Reg}

/-- The tick writes nothing that a wait depends on. -/
theorem WaitsForKey.after_tick (h : WaitsForKey s w x) : WaitsForKey (tick s) w x :=
  ⟨h.no_fault, h.fetched, h.decoded, h.no_key⟩

theorem WaitsForKey.stepRequest_eq (h : WaitsForKey s w x) : stepRequest s = tick s :=
  stepRequest_of_next (tickRunsInEveryCycle.2 s w x h.no_fault h.fetched h.decoded h.no_key)

/-- While no key is pressed, every cycle is a tick, and the wait goes on. -/
theorem WaitsForKey.serveAll_steps (h : WaitsForKey s w x) (n : Nat) :
    serveAll (List.replicate n .step) s = tick^[n] s ∧ WaitsForKey (tick^[n] s) w x := by
  induction n generalizing s with
  | zero => exact ⟨rfl, h⟩
  | succ n ih =>
    rw [List.replicate_succ, serveAll, serve, h.stepRequest_eq]
    exact ih h.after_tick

end

/-- `n` ticks write the timers and the audio trigger alone, and count both timers down by `n`. -/
theorem tick_iterate (s : State) (n : Nat) :
    FrameBut [.dt, .st, .audio] s (tick^[n] s) ∧ (tick^[n] s).dt.toNat = s.dt.toNat - n ∧
      (tick^[n] s).st.toNat = s.st.toNat - n := by
  induction n with
  | zero => exact ⟨.refl _ s, rfl, rfl⟩
  | succ n ih =>
    obtain ⟨frame, dt_eq, st_eq⟩ := ih
    rw [Function.iterate_succ_apply', tick_dt, tick_st, countDown_toNat_eq_sub, countDown_toNat_eq_sub, dt_eq, st_eq]
    exact ⟨frame.trans (frameBut_tick _), Nat.sub_sub _ n 1, Nat.sub_sub _ n 1⟩

/-- Settles O51: n waiting cycles are n ticks, after which the wait goes on, and the keys then set end it. -/
theorem keyWaitLastsUntilAKey : Obligations.KeyWaitLastsUntilAKey := by
  intro s w x n no_fault hw hi no_key
  obtain ⟨ticks, waits⟩ := WaitsForKey.serveAll_steps ⟨no_fault, hw, hi, no_key⟩ n
  obtain ⟨frame, dt_eq, st_eq⟩ := tick_iterate s n
  rw [ticks]
  refine ⟨frame, dt_eq, st_eq, fun keys k pressed highest => ?_⟩
  obtain ⟨-, -, ends⟩ := keysAreTheHosts.2.2 _ keys w x k waits.no_fault waits.fetched
  obtain ⟨reg_eq, pc_eq⟩ := ends waits.decoded pressed highest
  have pc_kept : (tick^[n] s).pc = s.pc := frame .pc (by decide)
  exact ⟨reg_eq, by rw [pc_eq, pc_kept]⟩

end Sys2Proof.Machine

/-! PROOFS. The index and memory family (spec/45_index_memory.md): the two operations that set I, and the registers stored
and loaded again. -/

namespace Sys2Proof.Machine

/-! ## Registers through memory (spec/45_index_memory.md R244, R245) -/

section
variable (s : State) (x : Reg) {k : Reg}

/-- The byte that a store of V0..VX from `a` leaves at `a + k` is Vk. -/
theorem loaderWrite_regsUpTo_byteAt (a : Nat) (le : k ≤ x) :
    (loaderWrite s a (regsUpTo s x)).byteAt (a + k.val) = s.reg k := by
  have inside : a ≤ a + k.val ∧ a + k.val < a + (regsUpTo s x).length := by
    rw [Fin.le_def] at le
    rw [regsUpTo_length]
    omega
  rw [loaderWrite_byteAt, dif_pos inside, regsUpTo_getElem]
  simp only [Nat.add_sub_cancel_left]

/-- The block of `x + 1` bytes from I that LD Vx,[I] reads where it does not leave memory. -/
def indexedBytes : List Byte := (List.range (x.val + 1)).map fun k => s.byteAt (s.idx.toNat + k)

theorem execLdRegs_fits (fits : s.idx.toNat + x.val ≤ 0xFFF) :
    execLdRegs x s = .next { s.advance with v := fillRegs s.v 0 (indexedBytes s x) } := by
  rw [execLdRegs_eq, readBlock_ok s s.idx.toNat (x.val + 1) (by omega)]
  rfl

/-- V0..VX are filled with the bytes from I upward. -/
theorem fillRegs_indexedBytes (le : k ≤ x) :
    (fillRegs s.v 0 (indexedBytes s x))[k] = s.byteAt (s.idx.toNat + k.val) := by
  have inside : 0 ≤ k.val ∧ k.val < 0 + (indexedBytes s x).length := by
    rw [Fin.le_def] at le
    simp only [indexedBytes, List.length_map, List.length_range]
    omega
  rw [Fin.getElem_fin, fillRegs_getElem, dif_pos inside]
  simp [indexedBytes]

end

/-- Settles O59: the store left Vk at I + k, and the load, which stays inside memory because the store did, reads it
there. -/
theorem storeThenLoadRestores : Obligations.StoreThenLoadRestores := by
  intro s t u x _ store no_fault mem_eq params_eq idx_eq
  obtain ⟨rfl, inside⟩ := execStRegs_of_no_fault store no_fault
  have idx_kept : u.idx = s.idx := by rw [idx_eq, advance_idx, loaderWrite_idx]
  have fits : u.idx.toNat + x.val ≤ 0xFFF := by
    rw [regsUpTo_length] at inside
    rw [idx_kept]
    omega
  refine ⟨_, execLdRegs_fits u x fits, fun k le => ?_⟩
  calc (fillRegs u.v 0 (indexedBytes u x))[k]
    _ = u.byteAt (u.idx.toNat + k.val) := fillRegs_indexedBytes u x le
    _ = (loaderWrite s s.idx.toNat (regsUpTo s x)).byteAt (s.idx.toNat + k.val) := by
      rw [State.byteAt, mem_eq, params_eq, idx_kept]; rfl
    _ = s.reg k := loaderWrite_regsUpTo_byteAt s x s.idx.toNat le

/-! ## The operations that set I (spec/45_index_memory.md R240, R242) -/

theorem toNat_address {nnn : Nat} (h : nnn < 0x1000) : (BitVec.ofNat 16 nnn).toNat = nnn := by
  rw [BitVec.toNat_ofNat]
  omega

theorem encode_ldI {nnn : Nat} (h : nnn < 0x1000) :
    encode (.ldI (BitVec.ofNat 16 nnn)) = BitVec.ofNat 16 (0xA000 + nnn) := by
  apply BitVec.eq_of_toNat_eq
  simp only [encode, packA_toNat, toNat_address h, BitVec.toNat_ofNat]
  omega

/-- Settles O53: the word is the canonical one of LD I, and NNN fits I. -/
theorem loadIndex : Obligations.LoadIndex := by
  intro s m nnn h
  have address : WellFormed (.ldI (BitVec.ofNat 16 nnn)) := decide_eq_true ((toNat_address h).symm ▸ h)
  rw [← encode_ldI h]
  exact ⟨decodeWord_encode m address, _, rfl, toNat_address h, rfl, frameBut_pc_idx s _ _⟩

/-- Settles O54: a byte times 5 is below 65536, so the product is the exact one. -/
theorem fontGlyphAddress : Obligations.FontGlyphAddress := by
  intro s x
  refine ⟨_, rfl, ?product, rfl, frameBut_pc_idx s _ _⟩
  case product =>
    have five : (5 : Word).toNat = 5 := rfl
    simp only [advance_idx, setIdx_idx, BitVec.toNat_mul, BitVec.toNat_setWidth, five]
    omega

end Sys2Proof.Machine

/-! PROOFS. The reset and hazards family (spec/70_reset_and_hazards.md): the load of an image. -/

namespace Sys2Proof.Machine

/-- The loader's write alone, with pc left where it was. -/
theorem frameBut_loaderWrite_mem (s : State) (a : Nat) (bs : List Byte) : FrameBut [.mem] s (loaderWrite s a bs) :=
  frameBut_iff.2 fun c => by cases c <;> simp [Unchanged]

section
variable (s : State) {bytes : List Byte}

/-- An image that fits is written over the reset state: reset has put pc at the entry point, and the write leaves it
there (R291). -/
theorem loadImage_fits (h : bytes.length ≤ progMax) :
    loadImage bytes s = (loaderWrite (resetState s) 0x200 bytes, true) := by
  have at_entry : (loaderWrite (resetState s) 0x200 bytes).pc = 0x200 := loaderWrite_pc ..
  rw [loadImage, if_neg (Nat.not_lt.2 h), ← at_entry]
  rfl

/-- An image that does not fit leaves the clean reset (C1). -/
theorem loadImage_too_long (h : bytes.length > progMax) : loadImage bytes s = (resetState s, false) :=
  if_pos h

end

/-- Settles O33: an image that fits is the loader's block write over the reset state, a longer one is not written. -/
theorem loadReplacesTheState : Obligations.LoadReplacesTheState := by
  intro s bytes
  constructor
  case left =>
    intro fits
    refine ⟨loaderWrite (resetState s) 0x200 bytes, ?served, loaderWrite_pc .., loaderWrite_byteAt_add _ _ bytes,
      loaderWrite_bytesBut _ _ bytes, frameBut_loaderWrite_mem _ _ bytes⟩
    case served => rw [serve, loadImage_fits s fits]
  case right =>
    intro too_long
    rw [serve, loadImage_too_long s too_long]

end Sys2Proof.Machine

/-! PROOFS. What every cycle keeps (spec/20_memory.md R63, spec/10_state.md R29): the font region, and the bound on the
pc. -/

namespace Sys2Proof.Machine

/-! ## The font (spec/20_memory.md R63, R64) -/

/-- A block written from an address above the font leaves the font region as it was. -/
theorem loaderWrite_byteAt_font {s : State} {a c : Nat} (bs : List Byte) (above : 0x050 ≤ a) (font : c < 80) :
    (loaderWrite s a bs).byteAt c = s.byteAt c :=
  loaderWrite_bytesBut s a bs c (by omega)

/-- The font stays intact where the parameters and the bytes of the font region are kept. -/
theorem FontIntact.of_kept {s t : State} (intact : FontIntact s) (params_eq : t.params = s.params)
    (bytes : ∀ a < 80, t.byteAt a = s.byteAt a) : FontIntact t := fun a h => by
  rw [bytes a h, intact a h, params_eq]

/-- Settles O27: a cycle keeps memory, or writes a block above the font. -/
theorem stepKeepsTheFont : Obligations.StepKeepsTheFont := by
  intro s t intact h
  obtain ⟨params_eq, mem_eq | ⟨bs, above, -, mem_eq⟩⟩ := step_memKeptOrBlock h
  · exact intact.of_kept params_eq fun a _ => by rw [State.byteAt, params_eq, mem_eq]; rfl
  · refine intact.of_kept params_eq fun a font => ?_
    calc t.byteAt a
      _ = (loaderWrite s s.idx.toNat bs).byteAt a := by
        rw [State.byteAt, params_eq, mem_eq, State.byteAt, loaderWrite_params]
      _ = s.byteAt a := loaderWrite_byteAt_font bs above font

/-! ## The pc and the return addresses (spec/10_state.md R29) -/

/-- The address operand of a well-formed jump or call fits 12 bits (spec/30_encoding.md R92). -/
theorem addr_lt_of_addrOk {addr : Word} (h : addrOk addr = true) : addr.toNat < 0x1000 :=
  of_decide_eq_true h

/-- A word was fetched only where pc leaves room for its two bytes. -/
theorem pc_le_of_fetch {s : State} {w : Word} (h : fetch s = .ok w) : s.pc.toNat ≤ 0xFFE := by
  by_contra no_room
  rw [fetch_bounds s no_room] at h
  cases h

theorem skipPc_eq_or (s : State) (c : Prop) [Decidable c] : skipPc s c = s.pc + 4 ∨ skipPc s c = s.pc + 2 :=
  ite_eq_or_eq ..

/-- From an address where a word can be fetched, a move of the pc by at most 4 stays in bounds. -/
theorem add_le_of_room {pc d : Word} (room : pc.toNat ≤ 0xFFE) (hd : d.toNat ≤ 4) : (pc + d).toNat ≤ 0x10FE := by
  rw [BitVec.toNat_add]
  omega

theorem skipPc_le {s : State} (room : s.pc.toNat ≤ 0xFFE) (c : Prop) [Decidable c] :
    (skipPc s c).toNat ≤ 0x10FE := by
  obtain e | e := skipPc_eq_or s c
  all_goals rw [e]; exact add_le_of_room room (by decide)

/-- Every pc of the table is in bounds: a move by at most 4 from a fetched word, a 12-bit address, such an address plus
a byte, or the word after a CALL. -/
theorem pcTable_le {i : Instr} {s : State} (wf : WellFormed i) (room : s.pc.toNat ≤ 0xFFE)
    (slots : ∀ k : Fin 16, s.stack[k].toNat ≤ 0xFFE) : (pcTable i s).toNat ≤ 0x10FE := by
  cases i with
  | jp addr | call addr =>
    have := addr_lt_of_addrOk wf
    simp only [pcTable]
    omega
  | jpV0 addr =>
    have := addr_lt_of_addrOk wf
    simp only [pcTable, BitVec.toNat_add, BitVec.toNat_setWidth]
    omega
  | ret =>
    have top : (topOfStack s).toNat ≤ 0xFFE := slots ⟨(s.sp.val - 1) % 16, by omega⟩
    exact add_le_of_room top (by decide)
  | seByte | sneByte | seReg | sneReg | skp | sknp => exact skipPc_le room _
  | ldVxK =>
    simp only [pcTable]
    split
    · exact add_le_of_room room (by decide)
    · omega
  | cls | ldByte | addByte | ldReg | orReg | andReg | xorReg | addReg | subReg | shr | subnReg | shl | ldI | rnd | drw
  | ldVxDt | ldDtVx | ldStVx | addI | ldF | ldB | stRegs | ldRegs => exact add_le_of_room room (by decide)

/-- CALL alone names the call stack. -/
theorem stack_mem_writes {i : Instr} (h : .stack ∈ writes i) : ∃ addr, i = .call addr := by
  cases i <;> simp [writes] at h ⊢

/-- Every slot that an operation leaves is a slot from before or the operation's own address. -/
theorem exec_stack_slot {i : Instr} {s t : State} (h : exec i s = .next t) (k : Fin 16) :
    t.stack[k] = s.stack[k] ∨ t.stack[k] = s.pc := by
  by_cases named : .stack ∈ writes i
  · obtain ⟨addr, rfl⟩ := stack_mem_writes named
    by_cases full : s.sp.val = 16
    · rw [exec, execCall_overflow s addr full] at h
      cases h; exact .inl rfl
    · rw [exec, execCall_push s addr full] at h
      cases h
      simp only [Fin.getElem_fin, Vector.getElem_set]
      split
      · exact .inr rfl
      · exact .inl rfl
  · have kept : t.stack = s.stack := exec_unchanged h .stack (by decide) named
    exact .inl (by rw [kept])

/-- The bound on the pc where the pc is kept: a raised fault writes the record alone. -/
theorem PcBound.of_raise {e : Trap} {s t : State} (bound : PcBound s) (h : raise e s = .next t) : PcBound t := by
  cases h; exact bound

/-- Settles O28: a cycle whose word was fetched writes the table's pc, and pushes an address a word was fetched at. -/
theorem stepKeepsPcBound : Obligations.StepKeepsPcBound := by
  intro s t bound h
  by_cases no_fault : t.fault = none
  · obtain ⟨u, rfl, ⟨w, i, hw, hi, hu⟩ | ⟨w, e, hw, -, rfl⟩⟩ := step_tick h no_fault
    · have room := pc_le_of_fetch hw
      refine ⟨?_, fun k => ?_⟩
      · rw [tick_pc, exec_pc hu no_fault]
        exact pcTable_le (decodeWord_wf hi) room bound.2
      · obtain e | e := exec_stack_slot hu k
        · exact (congrArg BitVec.toNat e).trans_le (bound.2 k)
        · exact (congrArg BitVec.toNat e).trans_le room
    · have moved : (undecodedBytes s.params.undecodedStep).toNat ≤ 4 := by
        cases s.params.undecodedStep <;> decide
      exact ⟨add_le_of_room (pc_le_of_fetch hw) moved, bound.2⟩
  · obtain ⟨e, fails⟩ := step_faulting h no_fault
    exact bound.of_raise fails

/-! ## The invariants at reset and over every run of the host -/

/-- Memory that lists nothing reads as the font below 0x050 and as 0 above (spec/10_state.md R47). -/
theorem resetWith_byteAt (p : Params) (n a : Nat) : (State.resetWith p n).byteAt a = unlisted p.font a := rfl

theorem resetWith_stack (p : Params) (n : Nat) (k : Fin 16) : (State.resetWith p n).stack[k] = 0 :=
  Vector.getElem_replicate k.isLt

theorem fontIntact_resetWith (p : Params) (n : Nat) : FontIntact (State.resetWith p n) :=
  fun a h => (resetWith_byteAt p n a).trans (dif_pos h)

theorem pcBound_resetWith (p : Params) (n : Nat) : PcBound (State.resetWith p n) := by
  refine ⟨(by decide : (0x200 : Word).toNat ≤ 0x10FE), fun k => ?_⟩
  rw [resetWith_stack]
  decide

/-- Settles O29: reset memory lists nothing, pc is the entry point, and every slot is 0. -/
theorem resetMeetsTheInvariants : Obligations.ResetMeetsTheInvariants := fun p n =>
  ⟨reset_memory_wf p n, fontIntact_resetWith p n, pcBound_resetWith p n⟩

/-- A cycle keeps the invariant of the machine. -/
theorem step_machineInv {s t : State} (inv : MachineInv s) (h : step s = .next t) : MachineInv t := by
  obtain ⟨canonical, intact, bound⟩ := inv
  exact ⟨stepKeepsMemoryCanonical s t canonical h, stepKeepsTheFont s t intact h, stepKeepsPcBound s t bound h⟩

theorem stepRequest_machineInv {s : State} (inv : MachineInv s) : MachineInv (stepRequest s) := by
  unfold stepRequest
  split
  case h_1 t ht => exact step_machineInv inv ht
  case h_2 | h_3 => exact inv

/-- The loader's write of an image that fits memory above the font keeps the invariant. -/
theorem loaderWrite_machineInv {s : State} {a : Nat} {bs : List Byte} (inv : MachineInv s) (above : 0x050 ≤ a)
    (fits : a + bs.length ≤ 4096) : MachineInv (loaderWrite s a bs) := by
  obtain ⟨canonical, intact, bound⟩ := inv
  refine ⟨?_, intact.of_kept (loaderWrite_params ..) fun c font => loaderWrite_byteAt_font bs above font, ?_⟩
  · rw [MemCanonical, loaderWrite_params]
    exact loaderWrite_wf a s bs canonical fits
  · rw [PcBound, loaderWrite_pc, loaderWrite_stack]
    exact bound

/-- A load, of any image, leaves a state that meets the invariant: the clean reset, or the image written above it. -/
theorem loadImage_machineInv (s : State) (bytes : List Byte) : MachineInv (loadImage bytes s).1 := by
  have clean : MachineInv (resetState s) := resetMeetsTheInvariants s.params s.draws
  by_cases fits : bytes.length ≤ progMax
  · rw [loadImage_fits s fits]
    rw [progMax] at fits
    exact loaderWrite_machineInv clean (by decide) (by omega)
  · rw [loadImage_too_long s (Nat.lt_of_not_le fits)]
    exact clean

/-- Every transaction of the host keeps the invariant: besides a load and a step none touches memory, the pc or the
stack. -/
theorem serve_machineInv {s : State} (inv : MachineInv s) (r : Request) : MachineInv (serve r s).1 := by
  cases r with
  | load bytes => exact loadImage_machineInv s bytes
  | step => exact stepRequest_machineInv inv
  | setKeys | readPixels | readRedraw | clearRedraw | readAudio | readFault => exact inv

theorem serveAll_machineInv {s : State} (inv : MachineInv s) (rs : List Request) : MachineInv (serveAll rs s) := by
  induction rs generalizing s with
  | nil => exact inv
  | cons r rs ih => exact ih (serve_machineInv inv r)

/-- Settles O30: reset meets the invariants, and every transaction keeps them. -/
theorem everyHostRunKeepsTheInvariants : Obligations.EveryHostRunKeepsTheInvariants := fun p n rs =>
  serveAll_machineInv (resetMeetsTheInvariants p n) rs

end Sys2Proof.Machine

/-! PROOFS. The words of the opcode map (spec/30_encoding.md): no word matches two rows, which words are undecoded, and
what a decoded operand can be. -/

namespace Sys2Proof.Machine

/-! ## No word matches two rows (spec/30_encoding.md R99) -/

/-- The pattern and the mask that a row has under a setting. -/
def OpRow.bits (row : OpRow) : SecondaryDecode → Word × Word
  | .nibbleLow => (row.pat, row.mask)
  | .exact     => (row.exactPat, row.exactMask)

theorem OpRow.matches_iff (row : OpRow) (m : SecondaryDecode) (w : Word) :
    row.matches m w = true ↔ w &&& (row.bits m).2 = (row.bits m).1 := by
  cases m with
  | nibbleLow => exact matches_nibbleLow_iff row
  | exact => exact matches_exact_iff row

/-- Two rows are told apart by their patterns on the bits that both their masks keep. -/
abbrev OpRow.Differ (m : SecondaryDecode) (row row' : OpRow) : Prop :=
  (row.bits m).1 &&& (row'.bits m).2 ≠ (row'.bits m).1 &&& (row.bits m).2

/-- A word that matches two rows has both patterns on the bits that both masks keep. -/
theorem OpRow.Differ.not_both {m : SecondaryDecode} {row row' : OpRow} (differ : OpRow.Differ m row row') (w : Word)
    (h : row.matches m w = true) : ¬ row'.matches m w = true := fun h' => by
  rw [OpRow.matches_iff] at h h'
  refine differ ?_
  rw [← h, ← h', BitVec.and_assoc, BitVec.and_assoc, BitVec.and_comm (row.bits m).2]

/-- A finite fact about the 34 rows: each two of them differ. -/
theorem opcodeMap_differ (m : SecondaryDecode) : opcodeMap.Pairwise (OpRow.Differ m) := by
  cases m <;> decide

/-- Where no two entries of a list satisfy a test, it picks at most one. -/
theorem length_filter_le_one {α : Type} {p : α → Bool} {l : List α}
    (exclusive : l.Pairwise fun a b => p a = true → ¬ p b = true) : (l.filter p).length ≤ 1 := by
  induction l with
  | nil => simp
  | cons a l ih =>
    obtain ⟨others, exclusive⟩ := List.pairwise_cons.1 exclusive
    by_cases ha : p a = true
    · have none_left : l.filter p = [] := List.filter_eq_nil_iff.2 fun b hb => others b hb ha
      simp [List.filter_cons_of_pos ha, none_left]
    · rw [List.filter_cons_of_neg ha]
      exact ih exclusive

/-- Settles O3: every two rows differ on the bits that both keep, so no word matches both. -/
theorem opcodeMapUnambiguous : Obligations.OpcodeMapUnambiguous := fun m w =>
  length_filter_le_one ((opcodeMap_differ m).imp fun differ => differ.not_both w)

/-! ## Undecoded words (spec/30_encoding.md R100) -/

/-- `r` rejects its word. -/
abbrev Rejects (r : Except DecodeError Instr) : Prop := ∃ e, r = .error e

@[simp] theorem rejects_error (e : DecodeError) : Rejects (.error e) := ⟨e, rfl⟩

/-- A decoder that tries a selector and goes on rejects a word that lacks the selector and that the rest rejects. -/
@[simp] theorem rejects_ite {c : Prop} [Decidable c] {i : Instr} {r : Except DecodeError Instr} :
    Rejects (if c then .ok i else r) ↔ ¬ c ∧ Rejects r := by
  by_cases h : c <;> simp [h]

section
variable {w : Word}

theorem fieldN_eq_iff {n : Nat} (h : n < 16) : fieldN w = BitVec.ofNat 4 n ↔ w.toNat % 16 = n := by
  rw [← BitVec.toNat_inj, fieldN_toNat, BitVec.toNat_ofNat, Nat.mod_eq_of_lt (show n < 2 ^ 4 from h)]

theorem fieldNN_eq_iff {n : Nat} (h : n < 256) : fieldNN w = BitVec.ofNat 8 n ↔ w.toNat % 256 = n := by
  rw [← BitVec.toNat_inj, fieldNN_toNat, BitVec.toNat_ofNat, Nat.mod_eq_of_lt (show n < 2 ^ 8 from h)]

theorem word_eq_iff {n : Nat} (h : n < 65536) : w = BitVec.ofNat 16 n ↔ w.toNat = n := by
  rw [← BitVec.toNat_inj, BitVec.toNat_ofNat, Nat.mod_eq_of_lt (show n < 2 ^ 16 from h)]

/-! The selectors that each family lacks. -/

theorem decode0_nibbleLow_rejects_iff : Rejects (decode0 .nibbleLow w) ↔ w.toNat % 16 ∉ [0x0, 0xE] := by
  simp [decode0, fieldN_eq_iff]

theorem decode0_exact_rejects_iff : Rejects (decode0 .exact w) ↔ w.toNat ∉ [0x00E0, 0x00EE] := by
  simp [decode0, word_eq_iff]

theorem decode8_rejects_iff : Rejects (decode8 w) ↔ w.toNat % 16 ∈ [0x8, 0x9, 0xA, 0xB, 0xC, 0xD, 0xF] := by
  simp [decode8, fieldN_eq_iff]
  omega

theorem decodeE_nibbleLow_rejects_iff : Rejects (decodeE .nibbleLow w) ↔ w.toNat % 16 ∉ [0xE, 0x1] := by
  simp [decodeE, fieldN_eq_iff]

theorem decodeE_exact_rejects_iff : Rejects (decodeE .exact w) ↔ w.toNat % 256 ∉ [0x9E, 0xA1] := by
  simp [decodeE, fieldNN_eq_iff]

theorem decodeF_rejects_iff :
    Rejects (decodeF w) ↔ w.toNat % 256 ∉ [0x07, 0x0A, 0x15, 0x18, 0x1E, 0x29, 0x33, 0x55, 0x65] := by
  simp [decodeF, fieldNN_eq_iff]

/-- The decoder rejects a word in the four families with a selector alone, each as its own decoder does. -/
theorem decodeWord_rejects_iff (m : SecondaryDecode) :
    Rejects (decodeWord m w) ↔
      w.toNat / 4096 = 0x0 ∧ Rejects (decode0 m w) ∨ w.toNat / 4096 = 0x8 ∧ Rejects (decode8 w) ∨
      w.toNat / 4096 = 0xE ∧ Rejects (decodeE m w) ∨ w.toNat / 4096 = 0xF ∧ Rejects (decodeF w) := by
  rw [← fieldOp_toNat, decodeWord]
  have family_lt := (fieldOp w).isLt
  generalize (fieldOp w).toNat = family at family_lt ⊢
  match family with
  | 0 | 8 | 14 | 15 => simp
  | 1 | 2 | 3 | 4 | 5 | 6 | 7 | 9 | 10 | 11 | 12 | 13 => simp
  | beyond + 16 => omega

end

/-- Settles O4: the rejected words of each family with a selector are those that lack every selector of it. -/
theorem undecodedWords : Obligations.UndecodedWords := by
  intro w fam low byte undecF undec8
  have rejected := decodeWord_rejects_iff (w := w)
  constructor
  case left =>
    refine (rejected .nibbleLow).trans ?_
    rw [decode0_nibbleLow_rejects_iff, decode8_rejects_iff, decodeE_nibbleLow_rejects_iff,
      decodeF_rejects_iff]
  case right =>
    refine (rejected .exact).trans ?_
    rw [decode0_exact_rejects_iff, decode8_rejects_iff, decodeE_exact_rejects_iff,
      decodeF_rejects_iff]

/-! ## What is decoded (spec/30_encoding.md R92, R97) -/

/-- Settles O6: a decoded address operand is a field of 12 bits, and no other operand has a check. -/
theorem decodedIsWellFormed : Obligations.DecodedIsWellFormed := fun _ _ _ => decodeWord_wf

/-- Settles O7, by evaluating the decoder on the eight words. -/
theorem exampleWordsDecode : Obligations.ExampleWordsDecode :=
  ⟨rfl, rfl, rfl, rfl, rfl, rfl, rfl, rfl⟩

end Sys2Proof.Machine

/-! PROOFS. Faults and the ends of a cycle (spec/60_exceptions.md section 1, spec/40_cycle.md): the fault table, the cycle
that raises a fault, the undecoded word, the parked state, and the redraw flag. -/

namespace Sys2Proof.Machine

/-! ## The fault table (spec/60_exceptions.md R261) -/

section
variable {s : State} {e : Trap} {α : Type} {r : Except Trap α} (f : α → State)

theorem orRaise_map_error (h : r = .error e) : orRaise s (r.map f) = raise e s := by rw [h]; rfl

theorem orRaise_map_ok {a : α} (h : r = .ok a) : orRaise s (r.map f) = .next (f a) := by rw [h]; rfl

end

section
variable {s : State} {a n v : Nat} {k : FaultKind} {bs : List Byte}

theorem readFault_eq_none_iff : readFault a n = none ↔ n = 0 ∨ a + n ≤ 0x1000 := by
  simp only [readFault, ite_eq_right_iff, reduceCtorEq, imp_false]
  omega

theorem writeFault_eq_none_iff : writeFault a n = none ↔ 0x050 ≤ a ∧ readFault a n = none := by
  by_cases font : a ≤ 0x04F
  · simp [writeFault, font]
    omega
  · simp [writeFault, font]
    omega

/-- A block read fails as the table says. -/
theorem readBlock_of_readFault (h : readFault a n = some (k, v)) : readBlock s a n = .error ⟨k, v⟩ := by
  obtain ⟨⟨some_bytes, outside⟩, fault⟩ := Option.ite_none_right_eq_some.1 h
  cases fault
  exact readBlock_bounds s a n some_bytes outside

/-- A block write fails as the table says: in the font at once, else at the first address above 0xFFF. -/
theorem writeBlock_of_writeFault (h : writeFault a bs.length = some (k, v)) (some_bytes : bs ≠ []) :
    writeBlock s a bs = .error ⟨k, v⟩ := by
  by_cases font : a ≤ 0x04F
  · rw [writeFault, if_pos font] at h
    cases h
    exact writeBlock_font s a bs some_bytes font
  · rw [writeFault, if_neg font] at h
    obtain ⟨⟨-, outside⟩, fault⟩ := Option.ite_none_right_eq_some.1 h
    cases fault
    exact writeBlock_bounds s a bs some_bytes (by omega) outside

theorem readBlock_of_no_readFault (h : readFault a n = none) :
    readBlock s a n = .ok ((List.range n).map fun k => s.byteAt (a + k)) :=
  readBlock_ok s a n (readFault_eq_none_iff.1 h)

theorem writeBlock_of_no_writeFault (h : writeFault a bs.length = none) :
    writeBlock s a bs = .ok (loaderWrite s a bs) := by
  obtain ⟨above, inside⟩ := writeFault_eq_none_iff.1 h
  have fits := readFault_eq_none_iff.1 inside
  cases bs with
  | nil => rfl
  | cons b bs => exact writeBlock_ok s a (b :: bs) above (fits.resolve_left (Nat.succ_ne_zero _))

theorem digits_ne_nil (b : Byte) : digits b ≠ [] := nofun

theorem regsUpTo_ne_nil (x : Reg) : regsUpTo s x ≠ [] := by
  rw [← List.length_pos_iff, regsUpTo_length]
  omega

/-- A key test fails as the table says. -/
theorem keyAt_of_keyFault {b : Byte}
    (h : (if b.toNat > 15 then some (FaultKind.keyIndex, b.toNat) else none) = some (k, v)) :
    keyAt s b = .error ⟨k, v⟩ := by
  obtain ⟨large, fault⟩ := Option.ite_none_right_eq_some.1 h
  cases fault
  exact keyAt_error s b (by omega)

theorem keyAt_of_no_keyFault {b : Byte}
    (h : (if b.toNat > 15 then some (FaultKind.keyIndex, b.toNat) else none) = none) :
    ∃ level, keyAt s b = .ok level := by
  have names : b.toNat < 16 := by
    by_contra large
    rw [if_pos (by omega)] at h
    cases h
  exact ⟨_, keyAt_ok s b names⟩

end

section
variable {i : Instr} {s : State}

/-- Where the table names a fault the operation raises it. -/
theorem exec_of_fault {k : FaultKind} {a : Nat} (h : faultTable i s = some (k, a)) : exec i s = raise ⟨k, a⟩ s := by
  cases i with
  | call addr =>
    obtain ⟨full, fault⟩ := Option.ite_none_right_eq_some.1 h
    cases fault
    rw [exec, execCall_overflow s addr full, full]
  | ret =>
    obtain ⟨empty, fault⟩ := Option.ite_none_right_eq_some.1 h
    cases fault
    rw [exec, execRet_underflow s empty, empty]
  | drw x y n => rw [exec, execDrw_eq, orRaise_map_error _ (readBlock_of_readFault h)]
  | ldRegs x => rw [exec, execLdRegs_eq, orRaise_map_error _ (readBlock_of_readFault h)]
  | ldB x =>
    rw [faultTable, ← digits_length (s.reg x)] at h
    rw [exec, execLdB_eq, orRaise_map_error _ (writeBlock_of_writeFault h (digits_ne_nil _))]
  | stRegs x =>
    rw [faultTable, ← regsUpTo_length s x] at h
    rw [exec, execStRegs_eq, orRaise_map_error _ (writeBlock_of_writeFault h (regsUpTo_ne_nil x))]
  | skp x => rw [exec, execSkp_eq, orRaise_map_error _ (keyAt_of_keyFault h)]
  | sknp x => rw [exec, execSknp_eq, orRaise_map_error _ (keyAt_of_keyFault h)]
  | cls | jp | seByte | sneByte | seReg | ldByte | addByte | ldReg | orReg | andReg | xorReg | addReg | subReg | shr
  | subnReg | shl | sneReg | ldI | jpV0 | rnd | ldVxDt | ldVxK | ldDtVx | ldStVx | addI | ldF => cases h

/-- Where the table names no fault the operation completes, in any state, and leaves the record as it was. -/
theorem exec_of_no_fault (h : faultTable i s = none) : ∃ t, exec i s = .next t ∧ t.fault = s.fault := by
  cases i with
  | call addr =>
    have room : s.sp.val ≠ 16 := fun full => by rw [faultTable, if_pos full] at h; cases h
    exact ⟨_, execCall_push s addr room, rfl⟩
  | ret =>
    have entry : s.sp.val ≠ 0 := fun empty => by rw [faultTable, if_pos empty] at h; cases h
    exact ⟨_, execRet_pop s entry, rfl⟩
  | drw x y n =>
    rw [exec, execDrw_eq, orRaise_map_ok _ (readBlock_of_no_readFault h)]
    exact ⟨_, rfl, rfl⟩
  | ldRegs x =>
    rw [exec, execLdRegs_eq, orRaise_map_ok _ (readBlock_of_no_readFault h)]
    exact ⟨_, rfl, rfl⟩
  | ldB x =>
    rw [faultTable, ← digits_length (s.reg x)] at h
    rw [exec, execLdB_eq, orRaise_map_ok _ (writeBlock_of_no_writeFault h)]
    exact ⟨_, rfl, loaderWrite_fault ..⟩
  | stRegs x =>
    rw [faultTable, ← regsUpTo_length s x] at h
    rw [exec, execStRegs_eq, orRaise_map_ok _ (writeBlock_of_no_writeFault h)]
    exact ⟨_, rfl, loaderWrite_fault ..⟩
  | skp x | sknp x =>
    obtain ⟨level, hk⟩ := keyAt_of_no_keyFault (s := s) h
    simp only [exec, execSkp_eq, execSknp_eq, orRaise_map_ok _ hk]
    exact ⟨_, rfl, rfl⟩
  | ldVxK x =>
    cases hk : scanKeys s.keys with
    | none => exact ⟨_, execLdVxK_wait s x hk, rfl⟩
    | some k => exact ⟨_, execLdVxK_found s x k hk, rfl⟩
  | addReg | subReg | shr | subnReg | shl => exact ⟨_, rfl, flagOp_fault ..⟩
  | addI x => exact ⟨_, rfl, addIndex_fault s x⟩
  | cls | jp | seByte | sneByte | seReg | ldByte | addByte | ldReg | orReg | andReg | xorReg | sneReg | ldI | jpV0 | rnd
  | ldVxDt | ldDtVx | ldStVx | ldF => exact ⟨_, rfl, rfl⟩

end

/-- Settles O17, by the table's two answers. -/
theorem faultTable_holds : Obligations.FaultTable := by
  refine fun i s => ⟨fun k a h => exec_of_fault h, fun no_fault h => ?_⟩
  obtain ⟨t, completes, kept⟩ := exec_of_no_fault h
  exact ⟨t, completes, kept.trans no_fault⟩

/-- Settles O18: a cycle that ends faulted raised a fault in the state before it. -/
theorem faultsArePrecise : Obligations.FaultsArePrecise := by
  intro s t h faulted
  obtain ⟨e, fails⟩ := step_faulting h faulted
  exact ⟨e.kind, e.addr, (Host.Outcome.next.inj fails).symm⟩

/-! ## Every cycle has a next state (spec/40_cycle.md R132, spec/60_exceptions.md R269) -/

/-- No operation stops the core: each completes, or raises the table's fault, which is a next state (log 3). -/
theorem exec_next (i : Instr) (s : State) : ∃ t, exec i s = .next t := by
  cases h : faultTable i s with
  | none =>
    obtain ⟨t, completes, -⟩ := exec_of_no_fault h
    exact ⟨t, completes⟩
  | some fault => exact ⟨_, exec_of_fault h⟩

section
variable {s : State}

theorem step_of_fetch_error {e : Trap} (no_fault : s.fault = none) (h : fetch s = .error e) : step s = raise e s := by
  simp only [step, no_fault, h]

theorem step_of_undecoded {w : Word} {e : DecodeError} (no_fault : s.fault = none) (hw : fetch s = .ok w)
    (he : decodeWord s.params.secondaryDecode w = .error e) : step s = .next (tick (undecoded s)) := by
  have kept : (undecoded s).fault = none := no_fault
  simp only [step, no_fault, hw, he, endCycle_tick kept]

theorem endCycle_next (t : State) : ∃ u, endCycle (.next t) = .next u := ⟨_, rfl⟩

end

/-- Settles O16, along the branches of a cycle: the fetch fails, the word decodes, or it does not. -/
theorem everyCycleHasANextState : Obligations.EveryCycleHasANextState := by
  refine ⟨fun s no_fault => ?_, exec_next⟩
  cases hw : fetch s with
  | error e => exact ⟨_, step_of_fetch_error no_fault hw⟩
  | ok w =>
    cases hi : decodeWord s.params.secondaryDecode w with
    | error e => exact ⟨_, step_of_undecoded no_fault hw hi⟩
    | ok i =>
      obtain ⟨t, ht⟩ := exec_next i s
      rw [step_of_decoded no_fault hw hi, ht]
      exact endCycle_next t

/-- Settles O14: the fetch fails at the first address above 0xFFF, which is 0x1000 for a pc of 0xFFF. -/
theorem fetchFault : Obligations.FetchFault := by
  intro s no_fault beyond
  have addr_eq : max s.pc.toNat 0x1000 = if s.pc.toNat = 0xFFF then 0x1000 else s.pc.toNat := by
    split <;> omega
  rw [step_of_fetch_error no_fault (fetch_bounds s (by omega)), addr_eq]
  rfl

/-- Settles O15: the cycle is the move of pc, then the tick, and neither touches anything else. -/
theorem undecodedWordIsNoFault : Obligations.UndecodedWordIsNoFault := by
  intro s w e no_fault hw he
  refine ⟨_, step_of_undecoded no_fault hw he, no_fault, ?pc, countDown_toNat_eq_sub s.dt,
    countDown_toNat_eq_sub s.st, tick_audio_iff (undecoded s), ?frame⟩
  case pc =>
    rw [tick_pc, undecoded_pc]
    cases s.params.undecodedStep with
    | zero => exact BitVec.add_zero s.pc
    | two => rfl
  case frame =>
    have moved : FrameBut [.pc] s (undecoded s) := frameBut_pc s _
    exact (moved.mono (by simp)).trans ((frameBut_tick _).mono (by simp))

/-- Settles O19: a set record ends `step` at once, the host's step then keeps the state, and a load starts from reset. -/
theorem faultedCoreIsTerminal : Obligations.FaultedCoreIsTerminal := by
  intro s r faulted
  have stops : step s = .fault (.coreFaulted r) := by simp only [step, faulted]
  refine ⟨stops, ?host, fun bytes => ?load⟩
  case host => rw [serve, stepRequest, stops]
  case load =>
    rw [serve]
    by_cases fits : bytes.length ≤ progMax
    · rw [loadImage_fits s fits, loaderWrite_fault]; rfl
    · rw [loadImage_too_long s (Nat.lt_of_not_le fits)]; rfl

/-! ## The parked state (spec/40_cycle.md R132) -/

/-- A word of family 0x1 is a jump (spec/30_encoding.md R97). -/
theorem decodeWord_jp {m : SecondaryDecode} {w : Word} (family : fieldOp w = 0x1#4) :
    decodeWord m w = .ok (.jp (fieldNNN w)) := by
  rw [decodeWord, family]; rfl

/-- The tick writes nothing that a parked state depends on. -/
theorem Parked.after_tick {s : State} (h : Parked s) : Parked (tick s) := h

/-- Settles O42: the jump writes to pc what it holds, so the cycle is the tick alone. -/
theorem parkedStaysParked : Obligations.ParkedStaysParked := by
  intro s parked
  have still_parked := parked.after_tick
  obtain ⟨no_fault, w, hw, family, to_itself⟩ := parked
  have jump : exec (.jp (fieldNNN w)) s = .next s := by rw [to_itself]; rfl
  refine ⟨tick s, ?_, still_parked, frameBut_tick s⟩
  rw [step_of_decoded no_fault hw (decodeWord_jp family), jump, endCycle_tick no_fault]

/-! ## The redraw flag (spec/10_state.md R40) -/

/-- CLS and DRW alone name the redraw flag. -/
theorem redraw_mem_writes {i : Instr} (h : .redraw ∈ writes i) : i = .cls ∨ ∃ x y n, i = .drw x y n := by
  cases i <;> simp [writes] at h ⊢

section
variable {s t : State}

theorem raise_redraw {e : Trap} (h : raise e s = .next t) : t.redraw = s.redraw :=
  frameBut_raise h .redraw (by decide)

/-- An operation that names the flag sets it, unless it raises a fault, and every other one keeps it. -/
theorem exec_redraw {i : Instr} (h : exec i s = .next t) : t.redraw = s.redraw ∨ t.redraw = true := by
  by_cases named : .redraw ∈ writes i
  · obtain rfl | ⟨x, y, n, rfl⟩ := redraw_mem_writes named
    · cases h; exact .inr rfl
    · rw [exec, execDrw_eq] at h
      obtain ⟨e, fails⟩ | ⟨rows, -, rfl⟩ := orRaise_map_cases h
      · exact .inl (raise_redraw fails)
      · exact .inr rfl
  · exact .inl (exec_unchanged h .redraw (by decide) named)

/-- A cycle keeps the flag or sets it. -/
theorem step_redraw (h : step s = .next t) : t.redraw = s.redraw ∨ t.redraw = true := by
  obtain ⟨-, ⟨e, -, fails⟩ | ⟨w, i, -, -, ends⟩ | ⟨w, e, -, -, rfl⟩⟩ := step_cases s t h
  · exact .inl (raise_redraw fails)
  · obtain ⟨u, hu, ended⟩ := endCycle_cases t _ ends
    have operation := exec_redraw hu
    obtain ⟨-, rfl⟩ | ⟨-, rfl⟩ := ended
    all_goals exact operation
  · exact .inl rfl

end

/-- Settles O25: a cycle keeps or sets the flag, and an operation that does not name it keeps it. -/
theorem redrawIsSticky : Obligations.RedrawIsSticky := by
  refine ⟨fun s t h was_set => ?_, fun i s t h was_clear is_set => ?_⟩
  · obtain kept | now_set := step_redraw h
    · exact kept.trans was_set
    · exact now_set
  · by_contra other
    have kept : t.redraw = s.redraw :=
      exec_unchanged h .redraw (by decide) fun named => other (redraw_mem_writes named)
    rw [kept, was_clear] at is_set
    cases is_set

end Sys2Proof.Machine

/-! PROOFS. The call stack apart from the other operations (spec/10_state.md R30), and the reset values and the host's
reads (spec/10_state.md R47, spec/60_exceptions.md section 5). -/

namespace Sys2Proof.Machine

/-! ## The call stack is apart (spec/10_state.md R30) -/

/-- `s` with another call stack: comparing a run on `s` with one on this state says that the stack is not read. -/
def State.withStack (s : State) (k : Vector Word 16) (p : Fin 17) : State := { s with stack := k, sp := p }

/-- A block read depends on memory and the parameters alone. -/
theorem readBlock_congr {s u : State} (bytes : ∀ c, u.byteAt c = s.byteAt c) (a n : Nat) :
    readBlock u a n = readBlock s a n := by
  by_cases fits : n = 0 ∨ a + n ≤ 0x1000
  · simp only [readBlock_ok _ a n fits, bytes]
  · rw [readBlock_bounds u a n (by omega) (by omega), readBlock_bounds s a n (by omega) (by omega)]

section
variable (s : State) (k : Vector Word 16) (p : Fin 17)

@[simp] theorem withStack_params : (s.withStack k p).params = s.params := rfl

theorem memWrite_withStack (a : Nat) (b : Byte) :
    memWrite (s.withStack k p) a b = (memWrite s a b).map fun u => u.withStack k p := by
  unfold memWrite
  split
  · rfl
  · split <;> rfl

theorem writeBlock_withStack (f : State → State) (a : Nat) (bs : List Byte) :
    (writeBlock (s.withStack k p) a bs).map f = (writeBlock s a bs).map fun u => f (u.withStack k p) := by
  induction bs generalizing s a with
  | nil => rfl
  | cons b bs ih =>
    simp only [writeBlock, memWrite_withStack]
    cases memWrite s a b with
    | error e => rfl
    | ok u => exact ih u (a + 1)

theorem flagOp_withStack (x y : Reg) (f g : Byte → Byte → Byte) :
    flagOp x y f g (s.withStack k p) = (flagOp x y f g s).withStack k p := by
  simp only [flagOp, withStack_params]
  cases s.params.vfAlias <;> rfl

theorem addIndex_withStack (x : Reg) : addIndex x (s.withStack k p) = (addIndex x s).withStack k p := by
  simp only [addIndex, withStack_params]
  cases s.params.vfAlias <;> rfl

/-- Besides CALL and RET no operation reads the call stack. -/
theorem exec_withStack {i : Instr} {s t : State} (hret : i ≠ .ret) (hcall : ∀ a, i ≠ .call a)
    (h : exec i s = .next t) : exec i (s.withStack k p) = .next (t.withStack k p) := by
  have rows_eq := readBlock_congr (s := s) (u := s.withStack k p) (fun _ => rfl)
  cases i with
  | ret => exact absurd rfl hret
  | call a => exact absurd rfl (hcall a)
  | cls | jp | seByte | sneByte | seReg | sneReg | jpV0 | ldByte | addByte | ldReg | orReg | andReg | xorReg | ldVxDt
  | ldI | ldF | rnd | ldDtVx | ldStVx => cases h; rfl
  | addReg | subReg | shr | subnReg | shl => cases h; exact congrArg _ (flagOp_withStack s k p _ _ _ _)
  | addI => cases h; exact congrArg _ (addIndex_withStack s k p _)
  | ldVxK x =>
    cases hk : scanKeys s.keys with
    | none =>
      rw [exec, execLdVxK_wait s x hk] at h
      cases h; exact execLdVxK_wait (s.withStack k p) x hk
    | some key =>
      rw [exec, execLdVxK_found s x key hk] at h
      cases h; exact execLdVxK_found (s.withStack k p) x key hk
  | skp | sknp =>
    simp only [exec, execSkp_eq, execSknp_eq] at h ⊢
    exact orRaise_map_comm (·.withStack k p) (fun _ => rfl) (fun _ => rfl) h
  | ldB | stRegs =>
    simp only [exec, execLdB_eq, execStRegs_eq, writeBlock_withStack] at h ⊢
    exact orRaise_map_comm (·.withStack k p) (fun _ => rfl) (fun _ => rfl) h
  | drw | ldRegs =>
    simp only [exec, execDrw_eq, execLdRegs_eq, rows_eq] at h ⊢
    exact orRaise_map_comm (·.withStack k p) (fun _ => rfl) (fun _ => rfl) h

end

/-- CALL and RET alone name the stack pointer. -/
theorem sp_mem_writes {i : Instr} (h : .sp ∈ writes i) : i = .ret ∨ ∃ addr, i = .call addr := by
  cases i <;> simp [writes] at h ⊢

/-- Settles O23: the tables name the stack and sp for CALL and RET alone, and only these read them. -/
theorem callStackIsApart : Obligations.CallStackIsApart := by
  intro i s t k p hret hcall h
  have stack_kept : t.stack = s.stack :=
    exec_unchanged h .stack (by decide) fun named => (stack_mem_writes named).elim hcall
  have sp_kept : t.sp = s.sp :=
    exec_unchanged h .sp (by decide) fun named => (sp_mem_writes named).elim hret fun ⟨a, e⟩ => hcall a e
  exact ⟨stack_kept, sp_kept, exec_withStack k p hret hcall h⟩

/-! ## Reset and the host's reads (spec/10_state.md R47, spec/60_exceptions.md R277, R278) -/

section
variable (p : Params) (n : Nat)

theorem resetWith_byteAt_above (a : Nat) (h : 80 ≤ a) : (State.resetWith p n).byteAt a = 0 :=
  (resetWith_byteAt p n a).trans (dif_neg (Nat.not_lt.2 h))

theorem resetWith_reg (x : Reg) : (State.resetWith p n).reg x = 0 := Vector.getElem_replicate x.isLt

theorem resetWith_keys (k : Reg) : (State.resetWith p n).keys[k] = false := Vector.getElem_replicate k.isLt

theorem resetWith_pixel (c : Nat) : (State.resetWith p n).disp.getLsbD c = false := BitVec.getLsbD_zero

end

/-- Settles O32: memory by what an unlisted address reads as, the vectors entry by entry, the rest as `resetWith` writes
it. -/
theorem resetHoldsTheTable : Obligations.ResetHoldsTheTable := by
  refine ⟨fun p n => ?_, rfl, rfl, rfl, rfl⟩
  exact ⟨fontIntact_resetWith p n, resetWith_byteAt_above p n, resetWith_reg p n, rfl, rfl, resetWith_stack p n, rfl,
    rfl, rfl, fun c _ => resetWith_pixel p n c, rfl, resetWith_keys p n, rfl, rfl, rfl⟩

/-- Settles O34, transaction by transaction, as `serve` answers it. -/
theorem hostTransactions : Obligations.HostTransactions := fun _ => ⟨rfl, rfl, rfl, rfl, rfl⟩

end Sys2Proof.Machine

/-! PROOFS. The operations that write a flag, in every order of `VF_ALIAS`, and RND (spec/42_alu.md sections 1, 4, 5; for
ADD I spec/45_index_memory.md R241). -/

namespace Sys2Proof.Machine

/-! ## The registers after a flag operation, order by order (spec/42_alu.md R170) -/

section
variable {s : State} (x y r : Reg) (f g : Byte → Byte → Byte)

/-- Under SEQUENTIAL the operands of the result are read after the flag is written. -/
theorem flagOp_reg_sequential (h : s.params.vfAlias = .sequential) :
    (flagOp x y f g s).reg r =
      if r = x then g (if x = vf then f (s.reg x) (s.reg y) else s.reg x)
        (if y = vf then f (s.reg x) (s.reg y) else s.reg y)
      else if r = vf then f (s.reg x) (s.reg y) else s.reg r := by
  simp only [flagOp, h, advance_reg, setReg_reg]

/-- Under RESULT_LAST the result of the old operands is written over the flag. -/
theorem flagOp_reg_resultLast (h : s.params.vfAlias = .resultLast) :
    (flagOp x y f g s).reg r =
      if r = x then g (s.reg x) (s.reg y) else if r = vf then f (s.reg x) (s.reg y) else s.reg r := by
  simp only [flagOp, h, advance_reg, setReg_reg]

/-- Under FLAG_LAST the flag of the old operands is written over the result. -/
theorem flagOp_reg_flagLast (h : s.params.vfAlias = .flagLast) :
    (flagOp x y f g s).reg r =
      if r = vf then f (s.reg x) (s.reg y) else if r = x then g (s.reg x) (s.reg y) else s.reg r := by
  simp only [flagOp, h, advance_reg, setReg_reg]

/-- Where the destination is not VF, VF is the flag of the old operands in every order. -/
theorem flagOp_reg_vf (hx : x ≠ vf) : (flagOp x y f g s).reg vf = f (s.reg x) (s.reg y) := by
  have hx' : vf ≠ x := hx.symm
  cases h : s.params.vfAlias with
  | sequential => rw [flagOp_reg_sequential _ _ _ _ _ h, if_neg hx', if_pos rfl]
  | resultLast => rw [flagOp_reg_resultLast _ _ _ _ _ h, if_neg hx', if_pos rfl]
  | flagLast => rw [flagOp_reg_flagLast _ _ _ _ _ h, if_pos rfl]

end

/-! ## Flags and results in plain arithmetic (spec/42_alu.md R178–R182) -/

/-- The operation `op` is the flag operation of `f` and `g`, which compute the flag and the result that `op` states in
plain arithmetic. -/
structure FlagInstr.ComputedBy (op : FlagInstr) (f g : Byte → Byte → Byte) : Prop where
  exec_eq : ∀ (x y : Reg) (s : State), exec (op.instr x y) s = .next (flagOp x y f g s)
  flag_toNat : ∀ a b : Byte, (f a b).toNat = op.flag a.toNat b.toNat
  res_toNat : ∀ a b : Byte, (g a b).toNat = op.res a.toNat b.toNat

section
variable (a b : Byte)

theorem flagByte_decide_toNat (c : Prop) [Decidable c] : (flagByte (decide c)).toNat = if c then 1 else 0 := by
  by_cases h : c <;> simp [flagByte, h]

theorem flagByte_toNat (c : Bool) : (flagByte c).toNat = c.toNat := by cases c <;> rfl

theorem lowBitFlag_toNat : (lowBitFlag a).toNat = a.toNat % 2 := by
  rw [lowBitFlag, flagByte_toNat, BitVec.getLsbD, Nat.toNat_testBit, Nat.pow_zero, Nat.div_one]

theorem highBitFlag_toNat : (highBitFlag a).toNat = a.toNat / 128 := by
  rw [highBitFlag, flagByte_toNat, BitVec.getLsbD, Nat.toNat_testBit]
  omega

theorem sub_toNat : (a - b).toNat = (a.toNat + 256 - b.toNat) % 256 := by
  rw [BitVec.toNat_sub]
  omega

theorem shiftRight_one_toNat : (a >>> 1).toNat = a.toNat / 2 := by
  rw [BitVec.toNat_ushiftRight, Nat.shiftRight_eq_div_pow, Nat.pow_one]

theorem shiftLeft_one_toNat : (a <<< 1).toNat = 2 * a.toNat % 256 := by
  rw [BitVec.toNat_shiftLeft, Nat.shiftLeft_eq, Nat.pow_one, Nat.mul_comm]

end

/-- ADD, SUB, SHR, SUBN and SHL, each by its own flag and result; SHR and SHL read V[X] alone. -/
theorem flagInstrs_computed : ∀ op ∈ flagInstrs, ∃ f g, op.ComputedBy f g := by
  simp only [flagInstrs, List.forall_mem_cons]
  refine ⟨⟨carryFlag, fun a b => a + b, ?add⟩, ⟨greaterFlag, fun a b => a - b, ?sub⟩,
    ⟨fun a _ => lowBitFlag a, fun a _ => a >>> 1, ?shr⟩,
    ⟨fun a b => greaterFlag b a, fun a b => b - a, ?subn⟩,
    ⟨fun a _ => highBitFlag a, fun a _ => a <<< 1, ?shl⟩, nofun⟩
  case add => exact ⟨fun _ _ _ => rfl, fun _ _ => flagByte_decide_toNat _, BitVec.toNat_add⟩
  case sub => exact ⟨fun _ _ _ => rfl, fun _ _ => flagByte_decide_toNat _, sub_toNat⟩
  case shr => exact ⟨fun _ _ _ => rfl, fun a _ => lowBitFlag_toNat a, fun a _ => shiftRight_one_toNat a⟩
  case subn => exact ⟨fun _ _ _ => rfl, fun _ _ => flagByte_decide_toNat _, fun a b => sub_toNat b a⟩
  case shl => exact ⟨fun _ _ _ => rfl, fun a _ => highBitFlag_toNat a, fun a _ => shiftLeft_one_toNat a⟩

/-- Settles O45: the registers of each order, in the plain arithmetic of each operation. -/
theorem flagOperations : Obligations.FlagOperations := by
  intro op hop s x y a b
  obtain ⟨f, g, exec_eq, flag_toNat, res_toNat⟩ := flagInstrs_computed op hop
  refine ⟨_, exec_eq x y s, flagOp_pc s x y f g, fun r hr => ?others, flagOp_eq s x y f g ▸ frameBut_pc_regs s _ _,
    fun hx hy => ?plain, fun hx hy => ?source, fun hx => ?destination⟩
  case others =>
    obtain ⟨ne_x, ne_vf⟩ : r ≠ x ∧ r ≠ vf := by simpa using hr
    exact flagOp_reg_other s x y r f g ne_x ne_vf
  case plain =>
    obtain ⟨res_eq, flag_eq⟩ := flagOp_plain s x y f g hx hy
    rw [res_eq, flag_eq]
    exact ⟨res_toNat _ _, flag_toNat _ _⟩
  case source =>
    refine ⟨by rw [flagOp_reg_vf x y f g hx, flag_toNat], ?_⟩
    cases h : s.params.vfAlias with
    | sequential => rw [flagOp_reg_sequential _ _ _ _ _ h, if_pos rfl, if_neg hx, if_pos hy, res_toNat, flag_toNat]
    | resultLast => rw [flagOp_reg_resultLast _ _ _ _ _ h, if_pos rfl, res_toNat]
    | flagLast => rw [flagOp_reg_flagLast _ _ _ _ _ h, if_neg hx, if_pos rfl, res_toNat]
  case destination =>
    cases h : s.params.vfAlias with
    | sequential =>
      rw [flagOp_reg_sequential _ _ _ _ _ h, if_pos hx.symm, if_pos hx, res_toNat, flag_toNat, apply_ite BitVec.toNat,
        flag_toNat]
    | resultLast => rw [flagOp_reg_resultLast _ _ _ _ _ h, if_pos hx.symm, res_toNat]
    | flagLast => rw [flagOp_reg_flagLast _ _ _ _ _ h, if_pos rfl, flag_toNat]

/-! ## RND (spec/42_alu.md R183) -/

/-- Settles O46: one register is written, with a value whose bits are bits of NN. -/
theorem rndMasksTheDraw : Obligations.RndMasksTheDraw := by
  intro s x nn
  have value : (s.setReg x (Config.freeByte s.draws &&& nn)).reg x = Config.freeByte s.draws &&& nn :=
    setReg_reg_same s x _
  refine ⟨_, rfl, value, fun b hb => ?mask, rfl, rfl, fun r hr => ?others, frameBut_setReg_draws s _ _⟩
  case mask =>
    have both := (congrArg (·.getLsbD b) value).symm.trans hb
    rw [BitVec.getLsbD_and, Bool.and_eq_true] at both
    exact both.2
  case others => exact setReg_reg_ne s x r _ (List.ne_of_not_mem_cons hr)

/-! ## ADD I (spec/45_index_memory.md R241) -/

section
variable {s : State} {x : Reg}

theorem addIndex_idx_sequential (h : s.params.vfAlias = .sequential) :
    (addIndex x s).idx = s.idx + (if x = vf then indexFlag s.idx (s.reg x) else s.reg x).setWidth 16 := by
  simp only [addIndex, h, advance_idx, setIdx_idx, setReg_idx, setReg_reg]

theorem addIndex_idx_old (h : s.params.vfAlias ≠ .sequential) :
    (addIndex x s).idx = s.idx + (s.reg x).setWidth 16 := by
  cases order : s.params.vfAlias with
  | sequential => exact absurd order h
  | resultLast | flagLast => simp only [addIndex, order, advance_idx, setIdx_idx, setReg_idx]

theorem add_setWidth_toNat (i : Word) (b : Byte) : (i + b.setWidth 16).toNat = (i.toNat + b.toNat) % 65536 := by
  rw [BitVec.toNat_add, BitVec.toNat_setWidth]
  omega

theorem indexFlag_toNat (i : Word) (b : Byte) : (indexFlag i b).toNat = if i.toNat + b.toNat > 0xFFF then 1 else 0 :=
  flagByte_decide_toNat _

end

/-- Settles O55: VF is the flag, and I gains the new VF where it is the operand under SEQUENTIAL, else the old Vx. -/
theorem addIndex_holds : Obligations.AddIndex := by
  intro s x sum flag
  refine ⟨_, rfl, ?flag, ?index, addIndex_pc s x, fun r hr => ?others, frameBut_addIndex s⟩
  case flag => rw [addIndex_reg, if_pos rfl, indexFlag_toNat]
  case index =>
    by_cases order : s.params.vfAlias = .sequential
    · rw [addIndex_idx_sequential order, add_setWidth_toNat]
      by_cases hx : x = vf
      · rw [if_pos hx, if_pos ⟨hx, order⟩, indexFlag_toNat]
      · rw [if_neg hx, if_neg fun both => hx both.1]
    · rw [addIndex_idx_old order, add_setWidth_toNat, if_neg fun both => order both.2]
  case others => rw [addIndex_reg, if_neg (List.ne_of_not_mem_cons hr)]

end Sys2Proof.Machine

/-! PROOFS. The toggle law of DRW (spec/43_display.md R205), and the block operations through I (spec/45_index_memory.md
R243–R245). -/

namespace Sys2Proof.Machine

/-! ## The toggle law (spec/43_display.md R205) -/

/-- A DRW that raises no fault found its rows in memory, or has none. -/
theorem rows_fit_of_drw {s t : State} {x y : Reg} {n : BitVec 4} (h : exec (.drw x y n) s = .next t)
    (no_fault : t.fault = none) : n.toNat = 0 ∨ s.idx.toNat + n.toNat ≤ 0x1000 := by
  by_contra outside
  rw [exec, execDrw_eq] at h
  obtain ⟨rows, read, -⟩ := orRaise_map_of_no_fault h no_fault
  rw [readBlock_bounds s s.idx.toNat n.toNat (by omega) (by omega)] at read
  cases read

/-- What a sprite covers depends on the bytes of its rows alone. -/
theorem spriteCovers_congr {x0 y0 n : Nat} {row row' : Nat → Byte} (h : ∀ r < n, row r = row' r) (px py : Nat) :
    spriteCovers x0 y0 n row px py = spriteCovers x0 y0 n row' px py := by
  simp only [spriteCovers]
  by_cases hr : (py + (32 - y0 % 32)) % 32 < n
  · rw [h _ hr]
  · simp [hr]

/-- Displays that agree pixel by pixel are the same. -/
theorem display_ext {d d' : Display}
    (h : ∀ px py, px < 64 → py < 32 → d.getLsbD (px + py * 64) = d'.getLsbD (px + py * 64)) : d = d' := by
  refine BitVec.eq_of_getLsbD_eq fun i hi => ?_
  obtain ⟨px, py, hx, hy, e⟩ := exists_pixelCell ⟨i, hi⟩
  obtain rfl : px + py * 64 = i := congrArg Fin.val e
  exact h px py hx hy

/-- A flag that is 1 where `p` holds and 0 elsewhere is 1 exactly where `p` holds. -/
theorem flag_eq_one_iff {b : Byte} {p : Prop} (one : p → b = 1) (zero : ¬ p → b = 0) : b = 1 ↔ p := by
  refine ⟨fun is_one => ?_, one⟩
  by_contra fails
  rw [zero fails] at is_one
  cases is_one

/-- Settles O49: the second blit XORs each pixel with what the first one did, and meets a lit pixel under the sprite
exactly where the first met a dark one. -/
theorem drwTwiceRestores : Obligations.DrwTwiceRestores := by
  intro s t u v x y x' y' n _ _ first no_fault disp_eq idx_eq rows_eq x_eq y_eq second
  have fits := rows_fit_of_drw first no_fault
  obtain ⟨t', first', pixels, -⟩ := drwXorsTheSprite s x y n fits
  obtain rfl : t = t' := Host.Outcome.next.inj (first.symm.trans first')
  obtain ⟨v', second', pixels', vf_one, vf_zero, -⟩ := drwXorsTheSprite u x' y' n (idx_eq.symm ▸ fits)
  obtain rfl : v = v' := Host.Outcome.next.inj (second.symm.trans second')
  simp only [idx_eq, x_eq, y_eq, disp_eq, spriteCovers_congr rows_eq] at pixels' vf_one vf_zero
  refine ⟨display_ext fun px py hx hy => ?restored, ?collision⟩
  case restored => rw [pixels' px py hx hy, pixels px py hx hy, Bool.xor_assoc, Bool.xor_self, Bool.xor_false]
  case collision =>
    rw [flag_eq_one_iff vf_one vf_zero]
    refine exists_congr fun px => exists_congr fun py => and_congr_right fun hx => and_congr_right fun hy => ?_
    rw [pixels px py hx hy, and_comm]
    refine and_congr_left fun covered => ?_
    rw [covered, Bool.xor_true, Bool.not_eq_true']

/-! ## The stores (spec/45_index_memory.md R243, R244) -/

section
variable (s : State) (x : Reg)

theorem execLdB_fits (above : 0x050 ≤ s.idx.toNat) (inside : s.idx.toNat + 2 ≤ 0xFFF) :
    execLdB x s = .next (loaderWrite s s.idx.toNat (digits (s.reg x))).advance := by
  rw [execLdB_eq, writeBlock_ok s _ _ above (by rw [digits_length]; omega)]; rfl

theorem execStRegs_fits (above : 0x050 ≤ s.idx.toNat) (inside : s.idx.toNat + x.val ≤ 0xFFF) :
    execStRegs x s = .next (loaderWrite s s.idx.toNat (regsUpTo s x)).advance := by
  rw [execStRegs_eq, writeBlock_ok s _ _ above (by rw [regsUpTo_length]; omega)]; rfl

end

/-- After a block store pc has moved on by 2, and no byte outside the block and nothing but memory and pc was written. -/
theorem loaderWrite_advance_quiet (s : State) (a : Nat) (bs : List Byte) :
    BytesBut a bs.length s (loaderWrite s a bs).advance ∧ (loaderWrite s a bs).advance.pc = s.pc + 2 ∧
      FrameBut [.pc, .mem] s (loaderWrite s a bs).advance :=
  ⟨loaderWrite_bytesBut s a bs, by rw [advance_pc, loaderWrite_pc], frameBut_loaderWrite s a bs⟩

/-- The digits of a byte, as numbers: the hundreds are at most 2, so each fits a byte. -/
theorem digits_toNat (b : Byte) :
    (digits b)[0].toNat = b.toNat / 100 ∧ (digits b)[1].toNat = b.toNat / 10 % 10 ∧
      (digits b)[2].toNat = b.toNat % 10 := by
  simp only [digits, List.getElem_cons_zero, List.getElem_cons_succ, BitVec.toNat_ofNat]
  omega

/-- Settles O56: the three bytes stored are the digits, and the digits make up the number. -/
theorem decimalDigits : Obligations.DecimalDigits := by
  intro s x above inside
  obtain ⟨hundreds, tens, ones⟩ := digits_toNat (s.reg x)
  have stored : ∀ k, (h : k < 3) → (loaderWrite s s.idx.toNat (digits (s.reg x))).advance.byteAt (s.idx.toNat + k) =
      (digits (s.reg x))[k] := fun k h => loaderWrite_byteAt_add s _ (digits (s.reg x)) k h
  have stored_0 := stored 0 (by decide)
  rw [Nat.add_zero] at stored_0
  refine ⟨_, execLdB_fits s x above inside, ?_⟩
  rw [stored_0, stored 1 (by decide), stored 2 (by decide), hundreds, tens, ones]
  exact ⟨by omega, by omega, by omega, by omega, loaderWrite_advance_quiet s _ (digits (s.reg x))⟩

/-- Settles O57: V0..VX are the block written at I. -/
theorem storeRegisters : Obligations.StoreRegisters := by
  intro s x above inside
  refine ⟨_, execStRegs_fits s x above inside, fun k le => loaderWrite_regsUpTo_byteAt s x _ le, ?_⟩
  rw [← regsUpTo_length s x]
  exact loaderWrite_advance_quiet s _ _

/-! ## The load (spec/45_index_memory.md R245) -/

/-- Settles O58: V0..VX are filled from the block at I, and the run of registers ends with VX. -/
theorem loadRegisters : Obligations.LoadRegisters := by
  intro s x inside
  have length_eq : (indexedBytes s x).length = x.val + 1 := by simp [indexedBytes]
  obtain ⟨frame, others⟩ := writesOnly_fillRegs s (indexedBytes s x) length_eq
  refine ⟨_, execLdRegs_fits s x inside, fun k le => fillRegs_indexedBytes s x le, fun k above => ?_, rfl, frame⟩
  exact others k (decide_eq_false (Fin.not_le.2 above))

end Sys2Proof.Machine
